-- ==== Sys2Proof/Word.lean ====
section
/-! DEFINITION. The widths the spec fixes (00_scope.md R7): bytes, 32-bit registers, 2-bit direction codes and the 5-bit
micro-program counter. Everything the rules compute is a natural number or an integer (R8), so no other word type occurs. -/

namespace Sys2Proof

/-- A channel, luminance, magnitude, edge mark or micro-op word: 8 bits (R7). -/
abbrev Byte := BitVec 8

/-- A register of the REG space: 32 bits (R7, R28). -/
abbrev Word := BitVec 32

/-- A direction code: 2 bits (R7, R24). -/
abbrev Sector := BitVec 2

/-- The micro-program counter: 5 bits (R7, R32). -/
abbrev Upc := BitVec 5

end Sys2Proof
end

