-- ==== Sys2Proof/Syntax.lean ====
section
/-! DEFINITION. The sixteen micro-ops (30_encoding.md R93). A micro-op has no operand and no immediate (R92). -/

namespace Sys2Proof

/-- One constructor per row of the opcode table. -/
inductive Instr where
  | halt | check | chkrad | chkthr
  | copy | grayf | thresh | luma | expand
  | blur2d | hblur | vblur
  | sobel | nms
  | dthr | hyst
  deriving DecidableEq, Repr

end Sys2Proof
end

