-- ==== Sys2Proof/Decode.lean ====
section
/-! DEFINITION. The decoder and the encoder of format `U` (30_encoding.md R90, R91, R93, R94, R99). -/

namespace Sys2Proof

/-- What the decoder answers: a micro-op, or "illegal" with the word (R99). -/
inductive Decoded where
  | op (i : Instr)
  | illegal (w : Byte)
  deriving DecidableEq, Repr

/-- The group field, bits 7 to 4 (R91). -/
def fieldGrp (w : Byte) : Nat := (w.extractLsb' 4 4).toNat

/-- The function field, bits 3 to 0 (R91). -/
def fieldFn (w : Byte) : Nat := (w.extractLsb' 0 4).toNat

/-- The decoder, total on any byte: the map of R93 by group and function, every other word illegal (R94). -/
def decode (w : Byte) : Decoded :=
  match fieldGrp w, fieldFn w with
  | 0x1, 0x0 => .op .halt
  | 0x2, 0x0 => .op .check
  | 0x2, 0x1 => .op .chkrad
  | 0x2, 0x2 => .op .chkthr
  | 0x3, 0x0 => .op .copy
  | 0x3, 0x1 => .op .grayf
  | 0x3, 0x2 => .op .thresh
  | 0x3, 0x3 => .op .luma
  | 0x3, 0x4 => .op .expand
  | 0x4, 0x0 => .op .blur2d
  | 0x4, 0x1 => .op .hblur
  | 0x4, 0x2 => .op .vblur
  | 0x5, 0x0 => .op .sobel
  | 0x5, 0x1 => .op .nms
  | 0x6, 0x0 => .op .dthr
  | 0x6, 0x1 => .op .hyst
  | _, _ => .illegal w

/-- The word of a micro-op (R93). -/
def encode : Instr → Byte
  | .halt => 0x10
  | .check => 0x20
  | .chkrad => 0x21
  | .chkthr => 0x22
  | .copy => 0x30
  | .grayf => 0x31
  | .thresh => 0x32
  | .luma => 0x33
  | .expand => 0x34
  | .blur2d => 0x40
  | .hblur => 0x41
  | .vblur => 0x42
  | .sobel => 0x50
  | .nms => 0x51
  | .dthr => 0x60
  | .hyst => 0x61

/-- The micro-op the decoder reads from an instruction whose bits are `w`, of which the opcode table gives `nbits`; the one word
length is 8 bits (R90), and the bits above `nbits` are zero. -/
def decodeTableWord (nbits w : Nat) : Option Instr :=
  if nbits ≤ 8 ∧ w < 2 ^ nbits then
    match decode (BitVec.ofNat 8 w) with
    | .op i => some i
    | .illegal _ => none
  else none

end Sys2Proof
end

