-- ==== Sys2Proof/Config.lean ====
section
/-! DEFINITION. What one instance of the hardware fixes (00_scope.md R6) and the values the spec leaves open
(93_implementation_defined.md). A free value is an opaque constant: nothing in Lean can tell what it is. -/

namespace Sys2Proof

/-- The seven planes (10_state.md R22). -/
inductive Plane where
  | luma | tmp | blur | mag | dir | sup | edge
  deriving DecidableEq, Repr

/-- The memories whose contents reset leaves unspecified (10_state.md R40). -/
inductive Space where
  | src
  | dst
  | plane (p : Plane)
  deriving DecidableEq, Repr

/-- The parameters the model takes as arguments (R6): they ride in the state, and no step writes them (log entry 1). -/
structure Params where
  /-- `NPIX_MAX`, the capacity of every plane in pixels. -/
  npixMax : Nat
  /-- `RMAX`, the largest radius the 2D blur unit accepts. -/
  rmax : Nat
  deriving DecidableEq, Repr

/-- The instance `State.reset` describes. DESIGN CHOICE, unsafe (log entry 2): the largest capacity R6 allows and the radius
for which the spec prints tables. Statements about reset are made for every instance. -/
def Config.instanceParams : Params := { npixMax := 2 ^ 30 - 1, rmax := 3 }

/-- The byte at an index of a memory nothing has written since the `epoch`-th reset (93_implementation_defined.md U1): a free
value, fixed until written (log entry 3). A `DIR` element is its two low bits. -/
opaque Config.unwritten (epoch : Nat) (space : Space) (index : Nat) : Byte

/-- What a 32-bit register would hold after a rule stored a number beyond 32 bits in it, which R8 rules out and no run
reaches (log entry 10): a free value. -/
opaque Config.unstatedWord (value : Nat) : Word

/-- Where exact bounds leave more than one candidate for a coefficient of radius above 3 (log entry 11): a free choice among
the candidates. -/
opaque Config.coefChoice (r i j : Nat) : Nat

end Sys2Proof
end

