-- ==== Sys2Proof/Machine/Arith.lean ====
section
/-! DEFINITION. The arithmetic primitives of 00_scope.md R9, over unbounded integers (R8): nothing wraps. -/

namespace Sys2Proof.Machine

/-- Luminance of a pixel, rounded to nearest with ties upward (41_pointwise.md R130). -/
def lum (r g b : Nat) : Nat := (299 * r + 587 * g + 114 * b + 500) / 1000

/-- A Q16 accumulator divided by 65536 and rounded to nearest, ties upward (R9). -/
def rnd16 (a : Nat) : Nat := (a + 32768) / 65536

/-- Saturation to a byte's range (R9). -/
def clamp8 (v : Int) : Nat := if v < 0 then 0 else if 255 < v then 255 else v.toNat

/-- The coordinate clamp of edge replication (R9, 42_gaussian.md R150). -/
def clampc (c : Int) (n : Nat) : Nat :=
  if c < 0 then 0 else if (n : Int) - 1 < c then n - 1 else c.toNat

/-- The integer square root of `n`, two bits of `n` a digit, for `n < 4 ^ digits`. -/
def isqrtDigits : (digits : Nat) → (n : Nat) → Nat
  | 0, _ => 0
  | digits + 1, n =>
    let s := 2 * isqrtDigits digits (n / 4)
    if (s + 1) * (s + 1) ≤ n then s + 1 else s

/-- The largest `s` with `s * s ≤ n` (R9). -/
def isqrt (n : Nat) : Nat := isqrtDigits (n.log2 / 2 + 1) n

/-- The square root rounded to nearest (R9, 43_gradient_nms.md R173). -/
def rsqrt (n : Nat) : Nat :=
  let s := isqrt n
  if s * s + s < n then s + 1 else s

/-- A value the rules place in `0..255`, as the byte that is stored. -/
def byteOf (v : Nat) : Byte := BitVec.ofNat 8 v

/-- The offsets `-r .. r` in ascending order. -/
def offsets (r : Nat) : List Int := (List.range (2 * r + 1)).map fun (k : Nat) => (k : Int) - r

end Sys2Proof.Machine
end

