-- ==== Sys2Proof/Machine/Rom.lean ====
section
/-! DEFINITION. The three ROMs (10_state.md R35, R36, R37, R41) and the entry table (30_encoding.md R98). They are constants of
the step relation, not state (R21). -/

namespace Sys2Proof.Machine

/-- The words of `UROM` that are not trailing filler, index 0x00 upward (R37). -/
def uromWords : List Byte :=
  [0x20, 0x30, 0x10, 0x00,
   0x20, 0x31, 0x10, 0x00,
   0x20, 0x21, 0x40, 0x10,
   0x20, 0x32, 0x10, 0x00,
   0x20, 0x22, 0x33, 0x41, 0x42, 0x50, 0x51, 0x60, 0x61, 0x34, 0x10]

/-- `UROM[upc]`; 0x1B to 0x1F hold the illegal filler 0x00 (R37). -/
def urom (upc : Upc) : Byte := uromWords.getD upc.toNat 0x00

/-- `ENTRY(t) = 4 * t` (30_encoding.md R98). -/
def entry (t : Nat) : Upc := BitVec.ofNat 5 (4 * t)

/-- `K1`, tap `k` at index `k + 3` (R35). -/
def k1 : List Nat := [291, 3539, 15862, 26152, 15862, 3539, 291]

/-- The printed tables of `COEF2D`, radius up to 3, for `i ≤ j` (R36). -/
def coefTable (r i j : Nat) : Nat :=
  match r, i, j with
  | 0, 0, 0 => 65536
  | 1, 0, 0 => 62716 | 1, 0, 1 => 697 | 1, 1, 1 => 8
  | 2, 0, 0 => 23452 | 2, 0, 1 => 7615 | 2, 0, 2 => 261 | 2, 1, 1 => 2472 | 2, 1, 2 => 85 | 2, 2, 2 => 3
  | 3, 0, 0 => 10436 | 3, 0, 1 => 6330 | 3, 0, 2 => 1412 | 3, 0, 3 => 116 | 3, 1, 1 => 3839
  | 3, 1, 2 => 857 | 3, 1, 3 => 70 | 3, 2, 2 => 191 | 3, 2, 3 => 16 | 3, 3, 3 => 1
  | _, _, _ => 0

/-- `b ^ n * n!` times the sum of the terms `0 .. n` of the series of `exp (-a / b)`, an integer. -/
def expSeries (a b : Nat) : (n : Nat) → Int
  | 0 => 1
  | n + 1 => expSeries a b n * (b * (n + 1) : Nat) + (-(a : Int)) ^ (n + 1)

/-- A bound, on the same scale, of what those terms leave out when `a ≤ b`. -/
def expError (a b n : Nat) : Nat := a ^ (n + 1) * (n + 2) / (b * (n + 1) ^ 2) + 1

/-- How many terms of the series the coefficient generator takes: enough that its bounds are far closer together than the
unrounded coefficients come to a tie. -/
def expTerms : Nat := 32

/-- Lower bound of the real weight `exp (-9 d / (2 r ^ 2))` of R41 at squared distance `d`, on a scale that depends on `r`
only: the sixteenth power of `exp (-9 d / (32 r ^ 2))`. -/
def weightLo (r d : Nat) : Nat :=
  (expSeries (9 * d) (32 * r * r) expTerms - expError (9 * d) (32 * r * r) expTerms).toNat ^ 16

/-- Upper bound of the same weight on the same scale. -/
def weightHi (r d : Nat) : Nat :=
  (expSeries (9 * d) (32 * r * r) expTerms + expError (9 * d) (32 * r * r) expTerms).toNat ^ 16

/-- The sum of `f` over all offsets of the kernel of radius `r`, given the absolute offsets. -/
def kernelSum (r : Nat) (f : Nat → Nat → Nat) : Nat :=
  ((offsets r).map fun dy => ((offsets r).map fun dx => f dx.natAbs dy.natAbs).sum).sum

/-- Bounds of R41's `G`, the sum of all weights. -/
def weightSumLo (r : Nat) : Nat := kernelSum r fun i j => weightLo r (i * i + j * j)
def weightSumHi (r : Nat) : Nat := kernelSum r fun i j => weightHi r (i * i + j * j)

/-- The least and the greatest value `floor (65536 * g / G + 1/2)` of R41 can have at a squared distance, by the bounds. -/
def coefLo (r d : Nat) : Nat := (131072 * weightLo r d + weightSumHi r) / (2 * weightSumHi r)
def coefHi (r d : Nat) : Nat := (131072 * weightHi r d + weightSumLo r) / (2 * weightSumLo r)

/-- R41's quantised weight of an offset other than the centre, for a radius beyond the printed tables. Where the bounds agree
it is that number; where they do not it is a free value among the candidates (DEDUCED, safe: log entry 11). -/
def coefGenerated (r i j : Nat) : Nat :=
  let lo := coefLo r (i * i + j * j)
  let hi := coefHi r (i * i + j * j)
  if lo = hi then lo else lo + Config.coefChoice r i j % (hi - lo + 1)

/-- The weight of an offset other than the centre, `i ≤ j`. -/
def coefOffCentre (r i j : Nat) : Nat := if r ≤ 3 then coefTable r i j else coefGenerated r i j

/-- The sum of all weights but the centre's. -/
def coefRest (r : Nat) : Nat :=
  kernelSum r fun i j => if i = 0 ∧ j = 0 then 0 else coefOffCentre r (min i j) (max i j)

/-- `COEF2D(r, i, j)` (R36): the printed tables up to radius 3, R41's quantisation beyond, in which the centre gets 65536 minus
all the others. -/
def coef2d (r i j : Nat) : Nat :=
  if r ≤ 3 then coefTable r (min i j) (max i j)
  else if i = 0 ∧ j = 0 then 65536 - coefRest r
  else coefOffCentre r (min i j) (max i j)

end Sys2Proof.Machine
end

