-- ==== Sys2Proof/Machine/State.lean ====
section
/-! DEFINITION. The whole state of the core (10_state.md R21) as plain data, and the state right after reset (R40). -/

namespace Sys2Proof.Machine

/-- The contents of an index-addressed memory: the units written since the last reset, addresses strictly rising. A unit that is
not listed has not been written and holds no value of the model's choosing (log entry 3). -/
abbrev Memory (w : Nat) := List (Nat × BitVec w)

/-- `STATUS.STATE` (R30). -/
inductive Phase where
  | idle | busy | done | error
  deriving DecidableEq, Repr

/-- The causes of 60_exceptions.md R230, code 1 upward. -/
inductive Cause where
  | badFilterType | badOption | zeroDim | dimRange | lenMismatch | badRadius | badThresholds
  | computationFailure | illegalUop
  deriving DecidableEq, Repr

/-- The host's transactions (45_host_interface.md R211). START is `wr 0 1`, ACK is `wr 0 2`. -/
inductive Transaction where
  | rd (i : Nat)
  | wr (i : Nat) (v : Word)
  | rdbSrc (i : Nat)
  | wrbSrc (i : Nat) (b : Byte)
  | rdbDst (i : Nat)
  | rdp (p : Plane) (i : Nat)
  deriving DecidableEq, Repr

/-- What the outside world does in one step (R210): a host transaction, the `rst` pin, or nothing but the level of `env_fail`
that the sequencer samples. -/
inductive Input where
  | host (t : Transaction)
  | rst
  | tick (envFail : Bool)
  deriving DecidableEq, Repr

/-- Why the model stops. Both stand only in states that no run from a START reaches; both are safe (log entries 8, 9). -/
inductive Fault where
  /-- Raised by a datapath micro-op when `W * H > NPIX_MAX`: it would form an index outside a space, which 20_memory.md R66 says
  does not happen. Safe. -/
  | frameBeyondPlanes
  /-- Raised by BLUR2D when `BLUR_RADIUS > RMAX`: `COEF2D` has no such table (10_state.md R36). Safe. -/
  | radiusBeyondRom
  deriving DecidableEq, Repr

/-- Why the model has no meaning. No meaning answers this: every micro-op is modelled. Safe. -/
inductive Refusal where
  | notModelled (mnemonic : String)
  deriving DecidableEq, Repr

/-- The state. The registers carry the names of R28. -/
structure State where
  /-- The instance's parameters (00_scope.md R6); no step writes them. The model's own field (log entry 1). -/
  params : Params
  phase : Phase
  errCode : Word
  errInfo : Word
  upc : Upc
  filterType : Word
  enabled : Word
  lowThreshold : Word
  highThreshold : Word
  blurRadius : Word
  thresholdValue : Word
  srcWidth : Word
  srcHeight : Word
  srcLen : Word
  dstWidth : Word
  dstHeight : Word
  dstLen : Word
  src : Memory 8
  dst : Memory 8
  luma : Memory 8
  tmp : Memory 8
  blur : Memory 8
  mag : Memory 8
  dir : Memory 2
  sup : Memory 8
  edge : Memory 8
  /-- How many resets there have been. The model's own field (log entries 3, 4). -/
  epoch : Nat
  /-- What the outside world does next, the next one first. The model's own field (log entry 5). -/
  inputs : List Input
  /-- The transaction port's read data (R210): what the last host read returned. The model's own field (log entry 7). -/
  answer : Option Word
  deriving DecidableEq, Repr

/-- The state right after the `epoch`-th reset of an instance (R40, 70_reset_and_hazards.md R260), the outside world silent. -/
def State.resetOf (params : Params) (epoch : Nat) : State where
  params := params
  phase := .idle
  errCode := 0
  errInfo := 0
  upc := 0
  filterType := 0
  enabled := 0
  lowThreshold := 50
  highThreshold := 150
  blurRadius := 2
  thresholdValue := 128
  srcWidth := 0
  srcHeight := 0
  srcLen := 0
  dstWidth := 0
  dstHeight := 0
  dstLen := 0
  src := []
  dst := []
  luma := []
  tmp := []
  blur := []
  mag := []
  dir := []
  sup := []
  edge := []
  epoch := epoch
  inputs := []
  answer := none

/-- The machine right after reset (R40), for the instance of log entry 2. -/
def State.reset : State := State.resetOf Config.instanceParams 0

end Sys2Proof.Machine
end

