-- ==== Sys2Proof/Machine/Ops.lean ====
section
/-! DEFINITION. The named operations over memory and registers, taking a trap (60_exceptions.md R240), the way back from it
(R241), and the micro-program counter. -/

namespace Sys2Proof.Machine

/-! ### Memory -/

/-- What has been written at an index, if anything. -/
def Memory.read {w : Nat} : Memory w → Nat → Option (BitVec w)
  | [], _ => none
  | (b, v) :: rest, a => if a = b then some v else Memory.read rest a

/-- Write of one unit. -/
def Memory.write {w : Nat} : Memory w → Nat → BitVec w → Memory w
  | [], a, v => [(a, v)]
  | (b, u) :: rest, a, v =>
    if a < b then (a, v) :: (b, u) :: rest
    else if a = b then (a, v) :: rest
    else (b, u) :: Memory.write rest a v

/-- Write of all the units `0 .. n - 1`, unit `i` taking the value `f i`: what a loop that writes each of them once leaves. -/
def Memory.fill {w : Nat} (m : Memory w) (n : Nat) (f : Nat → BitVec w) : Memory w :=
  (List.range n).map (fun i => (i, f i)) ++ m.filter fun c => decide (n ≤ c.1)

/-- The canonical form: addresses strictly rising (so no address twice); an unlisted unit holds no value, so no entry can equal
what an unlisted address holds. -/
abbrev Memory.wf {w : Nat} (m : Memory w) : Prop := m.Pairwise fun c d => c.1 < d.1

/-- Every listed address lies below `size`. -/
abbrev Memory.within {w : Nat} (m : Memory w) (size : Nat) : Prop := ∀ c ∈ m, c.1 < size

/-- The unit at an index: what was written there, or the free value of a unit never written (93_implementation_defined.md U1). -/
def Memory.readOr {w : Nat} (m : Memory w) (free : Nat → Byte) (i : Nat) : BitVec w :=
  (m.read i).getD ((free i).setWidth w)

/-! ### The spaces, as the rules read them: an index to a natural number -/

/-- `SRC[i]`. -/
def srcAt (s : State) (i : Nat) : Nat := (s.src.readOr (Config.unwritten s.epoch .src) i).toNat

/-- `DST[i]`, the stored byte (the host sees it only through 45_host_interface.md R216). -/
def dstAt (s : State) (i : Nat) : Nat := (s.dst.readOr (Config.unwritten s.epoch .dst) i).toNat

/-- Element `i` of a plane. -/
def planeAt (s : State) : Plane → Nat → Nat
  | .luma, i => (s.luma.readOr (Config.unwritten s.epoch (.plane .luma)) i).toNat
  | .tmp, i => (s.tmp.readOr (Config.unwritten s.epoch (.plane .tmp)) i).toNat
  | .blur, i => (s.blur.readOr (Config.unwritten s.epoch (.plane .blur)) i).toNat
  | .mag, i => (s.mag.readOr (Config.unwritten s.epoch (.plane .mag)) i).toNat
  | .dir, i => (s.dir.readOr (Config.unwritten s.epoch (.plane .dir)) i).toNat
  | .sup, i => (s.sup.readOr (Config.unwritten s.epoch (.plane .sup)) i).toNat
  | .edge, i => (s.edge.readOr (Config.unwritten s.epoch (.plane .edge)) i).toNat

/-! ### The frame -/

/-- `W`, `H` and `N = W * H` of a micro-op rule (00_scope.md R9). -/
def frameW (s : State) : Nat := s.srcWidth.toNat
def frameH (s : State) : Nat := s.srcHeight.toNat
def frameN (s : State) : Nat := frameW s * frameH s

/-- A natural number stored in a 32-bit register. The rules store only numbers below 2^32 in runs that reach them; elsewhere the
register takes a free value (log entry 10). -/
def toReg (v : Nat) : Word := if v < 2 ^ 32 then BitVec.ofNat 32 v else Config.unstatedWord v

/-! ### The micro-program counter -/

/-- `UROM[upc]`, the fetched word (40_sequencer_control.md R110). -/
def fetch (s : State) : Byte := urom s.upc

/-- A micro-op completed without a trap: `upc <- (upc + 1) mod 32` (R110). -/
def advance (s : State) : State := { s with upc := s.upc + 1 }

/-! ### Traps -/

/-- The cause codes of 60_exceptions.md R230; 0 is "no error". -/
def causeCode : Cause → Word
  | .badFilterType => 1
  | .badOption => 2
  | .zeroDim => 3
  | .dimRange => 4
  | .lenMismatch => 5
  | .badRadius => 6
  | .badThresholds => 7
  | .computationFailure => 8
  | .illegalUop => 9

/-- Whether a cause is a ContractViolation; the others are ComputationFailures (R230, R231). -/
def isContractViolation : Cause → Bool
  | .computationFailure | .illegalUop => false
  | .badFilterType | .badOption | .zeroDim | .dimRange | .lenMismatch | .badRadius | .badThresholds => true

/-- Trap entry, `raise c(info)` (R240): the cause, the detail and `STATE <- ERROR`; `upc` and everything else unchanged. -/
def trap (c : Cause) (info : Nat) (s : State) : State :=
  { s with errCode := causeCode c, errInfo := toReg info, phase := .error }

/-- What START and ACK both clear: the trap record and the DST descriptor (40_sequencer_control.md R111, 45_host_interface.md
R219). It is the way back from a trap: nothing is restored (60_exceptions.md R241). -/
def clearRecord (s : State) : State :=
  { s with errCode := 0, errInfo := 0, dstWidth := 0, dstHeight := 0, dstLen := 0 }

/-! ### Micro-ops -/

/-- A datapath micro-op: it runs `f` and advances. A frame beyond the planes, which CHECK rejects (R113), stops by name. -/
def datapath (f : State → State) (s : State) : Host.Outcome State Fault Refusal :=
  if frameN s ≤ s.params.npixMax then .next (advance (f s)) else .fault .frameBeyondPlanes

/-- Write of all `4 * N` bytes of DST and of its descriptor (41_pointwise.md R136). -/
def publish (f : Nat → Byte) (s : State) : State :=
  { s with
    dst := s.dst.fill (4 * frameN s) f
    dstWidth := s.srcWidth
    dstHeight := s.srcHeight
    dstLen := toReg (4 * frameN s) }

end Sys2Proof.Machine
end

