-- ==== Sys2Proof/Machine/Checks.lean ====
section
/-! DEFINITION. The check family: CHECK, CHKRAD, CHKTHR (40_sequencer_control.md R113 to R115). -/

namespace Sys2Proof.Machine

/-- The outcome of a check micro-op: the trap it found, or nothing but the advance. -/
def checked (violation : Option (Cause × Nat)) (s : State) : State :=
  match violation with
  | some (c, info) => trap c info s
  | none => advance s

/-- The tests of CHECK in R113's order; the first that fires wins. -/
def frameViolation (s : State) : Option (Cause × Nat) :=
  if frameW s = 0 then some (.zeroDim, 11)
  else if frameH s = 0 then some (.zeroDim, 12)
  else if s.params.npixMax < frameW s * frameH s then some (.dimRange, 0)
  else if s.srcLen.toNat ≠ 4 * (frameW s * frameH s) then some (.lenMismatch, s.srcLen.toNat)
  else if 255 < s.lowThreshold.toNat then some (.badOption, 7)
  else if 255 < s.highThreshold.toNat then some (.badOption, 8)
  else if 255 < s.thresholdValue.toNat then some (.badOption, 10)
  else none

/-- The test of CHKRAD (R114). -/
def radiusViolation (s : State) : Option (Cause × Nat) :=
  if s.params.rmax < s.blurRadius.toNat then some (.badRadius, s.blurRadius.toNat) else none

/-- The test of CHKTHR (R115). -/
def thresholdViolation (s : State) : Option (Cause × Nat) :=
  if s.highThreshold.toNat < s.lowThreshold.toNat then
    some (.badThresholds, s.highThreshold.toNat * 256 + s.lowThreshold.toNat)
  else none

/-- CHECK (R113). -/
def execCheck (s : State) : Host.Outcome State Fault Refusal := .next (checked (frameViolation s) s)

/-- CHKRAD (R114). -/
def execChkrad (s : State) : Host.Outcome State Fault Refusal := .next (checked (radiusViolation s) s)

/-- CHKTHR (R115). -/
def execChkthr (s : State) : Host.Outcome State Fault Refusal := .next (checked (thresholdViolation s) s)

end Sys2Proof.Machine
end

