-- ==== Sys2Proof/Machine/Control.lean ====
section
/-! DEFINITION. The control family: HALT (40_sequencer_control.md R112). -/

namespace Sys2Proof.Machine

/-- `STATUS.STATE <- DONE` (R112); `upc` stays. -/
def enterDone (s : State) : State := { s with phase := .done }

/-- HALT (R112). -/
def execHalt (s : State) : Host.Outcome State Fault Refusal := .next (enterDone s)

end Sys2Proof.Machine
end

