-- ==== Sys2Proof/Machine/Operands.lean ====
section
/-! DEFINITION. The operand forms: pixels of the byte spaces (20_memory.md R62), plane elements by coordinate (R64), the direct
and the clamped addressing mode (R71), interior pixels (00_scope.md R10) and the neighbours of a sector (43_gradient_nms.md
R174). -/

namespace Sys2Proof.Machine

/-- Index of element `(x, y)` of a plane of width `w` (R64). -/
def indexOf (w x y : Nat) : Nat := y * w + x

/-- Column and row of an index. -/
def columnOf (w i : Nat) : Nat := i % w
def rowOf (w i : Nat) : Nat := i / w

/-- `px(SRC, x, y, c)` (00_scope.md R9). -/
def px (s : State) (x y c : Nat) : Nat := srcAt s (4 * indexOf (frameW s) x y + c)

/-- Luminance of pixel `i` of SRC (41_pointwise.md R130); the alpha byte never enters. -/
def lumaOfPixel (s : State) (i : Nat) : Nat := lum (srcAt s (4 * i)) (srcAt s (4 * i + 1)) (srcAt s (4 * i + 2))

/-- The direct mode: `P[x, y]` (R71). -/
def elementAt (s : State) (p : Plane) (x y : Nat) : Nat := planeAt s p (indexOf (frameW s) x y)

/-- The clamped mode: `P[clampc(x, W), clampc(y, H)]` (R71, 42_gaussian.md R150). -/
def elementClamped (s : State) (p : Plane) (x y : Int) : Nat :=
  elementAt s p (clampc x (frameW s)) (clampc y (frameH s))

/-- The clamped mode on a channel of SRC. -/
def pxClamped (s : State) (x y : Int) (c : Nat) : Nat := px s (clampc x (frameW s)) (clampc y (frameH s)) c

/-- `1 <= x < W - 1` and `1 <= y < H - 1` (R10). -/
abbrev isInterior (w h x y : Nat) : Prop := 1 ≤ x ∧ x + 1 < w ∧ 1 ≤ y ∧ y + 1 < h

/-- The bytes of an output pixel whose three colour channels are `v` and whose alpha is `a`, as byte `k = 4 * i + c` of a byte
space: `v` and `a` of pixel `i`. -/
def grayPixelByte (v a : Nat → Nat) (k : Nat) : Byte := byteOf (if k % 4 = 3 then a (k / 4) else v (k / 4))

/-- The two neighbours of `(x, y)` for a direction code, in the order of the table of R174. -/
def sectorNeighbours (code x y : Nat) : (Nat × Nat) × (Nat × Nat) :=
  match code with
  | 0 => ((x - 1, y), (x + 1, y))
  | 1 => ((x + 1, y - 1), (x - 1, y + 1))
  | 2 => ((x, y - 1), (x, y + 1))
  | _ => ((x - 1, y - 1), (x + 1, y + 1))

/-- The eight neighbours of an interior `(x, y)`, in the order of 44_threshold_hysteresis.md R192. -/
def eightNeighbours (x y : Nat) : List (Nat × Nat) :=
  [(x - 1, y - 1), (x, y - 1), (x + 1, y - 1), (x - 1, y), (x + 1, y), (x - 1, y + 1), (x, y + 1), (x + 1, y + 1)]

/-- The interior pixels in raster order: rows top to bottom, each left to right (R10, R192). None when `W < 3` or `H < 3`. -/
def interiorRaster (w h : Nat) : List (Nat × Nat) :=
  (List.range (h - 2)).flatMap fun y => (List.range (w - 2)).map fun x => (x + 1, y + 1)

end Sys2Proof.Machine
end

