-- ==== Sys2Proof/Machine/EdgeMarking.lean ====
section
/-! DEFINITION. The edge-marking family: DTHR and HYST (44_threshold_hysteresis.md R190 to R193, R196). -/

namespace Sys2Proof.Machine

/-- The mark of a suppressed magnitude: 255 strong, 128 weak, 0 none, strong tested first (R190). -/
def markOf (lo hi v : Nat) : Nat := if hi ≤ v then 255 else if lo ≤ v then 128 else 0

/-- DTHR (R190): SUP to EDGE, border included. -/
def execDthr (s : State) : Host.Outcome State Fault Refusal :=
  datapath (fun s => { s with
    edge := s.edge.fill (frameN s) fun i =>
      byteOf (markOf s.lowThreshold.toNat s.highThreshold.toNat (planeAt s .sup i)) }) s

/-- The visit of one pixel (R192): a weak element becomes 255 if a neighbour reads 255 in the CURRENT content of the plane, else
0; any other element is left as it is. -/
def hystVisit (free : Nat → Byte) (w : Nat) (m : Memory 8) (p : Nat × Nat) : Memory 8 :=
  let at' : Nat × Nat → Nat := fun q => (m.readOr free (indexOf w q.1 q.2)).toNat
  if at' p = 128 then
    m.write (indexOf w p.1 p.2) (if (eightNeighbours p.1 p.2).any fun q => at' q == 255 then 255 else 0)
  else m

/-- The single raster-order pass over the isInterior (R192, R196). -/
def hystPass (free : Nat → Byte) (w h : Nat) (m : Memory 8) : Memory 8 :=
  (interiorRaster w h).foldl (hystVisit free w) m

/-- HYST (R192): EDGE in place. -/
def execHyst (s : State) : Host.Outcome State Fault Refusal :=
  datapath (fun s => { s with
    edge := hystPass (Config.unwritten s.epoch (.plane .edge)) (frameW s) (frameH s) s.edge }) s

end Sys2Proof.Machine
end

