-- ==== Sys2Proof/Machine/Gaussian.lean ====
section
/-! DEFINITION. The convolution family: BLUR2D, HBLUR, VBLUR (42_gaussian.md R150 to R153). -/

namespace Sys2Proof.Machine

/-- The 7-tap accumulator: the sum of `K1[k + 3] * f k` for `k` from -3 to 3 (R152). -/
def tapSum (f : Int → Nat) : Nat :=
  ((List.range 7).map fun j => k1.getD j 0 * f ((j : Int) - 3)).sum

/-- The 2D accumulator: the sum of `COEF2D(r, abs dx, abs dy) * f dx dy` over the footprint (R151). -/
def footprintSum (r : Nat) (f : Int → Int → Nat) : Nat :=
  ((offsets r).map fun dy => ((offsets r).map fun dx => coef2d r dx.natAbs dy.natAbs * f dx dy).sum).sum

/-- Rounding and saturation of an accumulator: `clamp8(rnd16(acc))`. -/
def roundAcc (acc : Nat) : Nat := clamp8 (rnd16 acc)

/-- Channel `c` of output pixel `(x, y)` of BLUR2D (R151). -/
def blur2dAt (s : State) (r x y c : Nat) : Nat :=
  roundAcc (footprintSum r fun dx dy => pxClamped s (x + dx) (y + dy) c)

/-- Element `(x, y)` of the horizontal pass (R152). -/
def hblurAt (s : State) (x y : Nat) : Nat := roundAcc (tapSum fun k => elementClamped s .luma (x + k) y)

/-- Element `(x, y)` of the vertical pass (R153). -/
def vblurAt (s : State) (x y : Nat) : Nat := roundAcc (tapSum fun k => elementClamped s .tmp x (y + k))

/-- BLUR2D (R151). A radius beyond the coefficient ROM, which CHKRAD rejects (R114), stops by name. -/
def execBlur2d (s : State) : Host.Outcome State Fault Refusal :=
  if s.params.rmax < s.blurRadius.toNat then .fault .radiusBeyondRom
  else
    datapath (publish fun k =>
      byteOf (blur2dAt s s.blurRadius.toNat (columnOf (frameW s) (k / 4)) (rowOf (frameW s) (k / 4)) (k % 4))) s

/-- HBLUR (R152): LUMA to TMP. -/
def execHblur (s : State) : Host.Outcome State Fault Refusal :=
  datapath (fun s => { s with
    tmp := s.tmp.fill (frameN s) fun i => byteOf (hblurAt s (columnOf (frameW s) i) (rowOf (frameW s) i)) }) s

/-- VBLUR (R153): TMP to BLUR. -/
def execVblur (s : State) : Host.Outcome State Fault Refusal :=
  datapath (fun s => { s with
    blur := s.blur.fill (frameN s) fun i => byteOf (vblurAt s (columnOf (frameW s) i) (rowOf (frameW s) i)) }) s

end Sys2Proof.Machine
end

