-- ==== Sys2Proof/Machine/Gradient.lean ====
section
/-! DEFINITION. The gradient family: SOBEL and NMS (43_gradient_nms.md R170 to R175). -/

namespace Sys2Proof.Machine

/-- The horizontal gradient of `b` at an interior `(x, y)` (R171). -/
def gradX (b : Nat → Nat → Nat) (x y : Nat) : Int :=
  - b (x - 1) (y - 1) + b (x + 1) (y - 1) - 2 * b (x - 1) y + 2 * b (x + 1) y - b (x - 1) (y + 1) + b (x + 1) (y + 1)

/-- The vertical gradient of `b` at an interior `(x, y)` (R171). -/
def gradY (b : Nat → Nat → Nat) (x y : Nat) : Int :=
  - b (x - 1) (y - 1) - 2 * b x (y - 1) - b (x + 1) (y - 1) + b (x - 1) (y + 1) + 2 * b x (y + 1) + b (x + 1) (y + 1)

/-- The magnitude, rounded to nearest and clamped to a byte (R173). -/
def magnitude (gx gy : Int) : Nat := min 255 (rsqrt (gx * gx + gy * gy).toNat)

/-- The sector code (R172), its tests in the rule's order; the boundaries are the spec's from general knowledge (log entry 13). -/
def sector (gx gy : Int) : Nat :=
  let ax : Int := gx.natAbs
  let ay : Int := gy.natAbs
  if gx = 0 ∧ gy = 0 then 0
  else if (ax + ay) ^ 2 < 2 * ax ^ 2 then 0
  else if ax ≤ ay ∧ 2 * ax ^ 2 ≤ (ay - ax) ^ 2 then 2
  else if 0 < gx then 1
  else 3

/-- The gradient of plane BLUR at `(x, y)`. -/
def blurGradX (s : State) (x y : Nat) : Int := gradX (elementAt s .blur) x y
def blurGradY (s : State) (x y : Nat) : Int := gradY (elementAt s .blur) x y

/-- Element `(x, y)` of MAG as SOBEL computes it (R170): 0 on the border. -/
def sobelMag (s : State) (x y : Nat) : Nat :=
  if isInterior (frameW s) (frameH s) x y then magnitude (blurGradX s x y) (blurGradY s x y) else 0

/-- Element `(x, y)` of DIR as SOBEL computes it (R170): 0 on the border. -/
def sobelDir (s : State) (x y : Nat) : Nat :=
  if isInterior (frameW s) (frameH s) x y then sector (blurGradX s x y) (blurGradY s x y) else 0

/-- SOBEL (R170): BLUR to MAG and DIR. -/
def execSobel (s : State) : Host.Outcome State Fault Refusal :=
  datapath (fun s => { s with
    mag := s.mag.fill (frameN s) fun i => byteOf (sobelMag s (columnOf (frameW s) i) (rowOf (frameW s) i))
    dir := s.dir.fill (frameN s) fun i =>
      BitVec.ofNat 2 (sobelDir s (columnOf (frameW s) i) (rowOf (frameW s) i)) }) s

/-- Element `(x, y)` of SUP as NMS computes it (R175): the magnitude if it is at least both neighbours', 0 on the border. -/
def nmsAt (s : State) (x y : Nat) : Nat :=
  if isInterior (frameW s) (frameH s) x y then
    let m := elementAt s .mag x y
    let n := sectorNeighbours (elementAt s .dir x y) x y
    if elementAt s .mag n.1.1 n.1.2 ≤ m ∧ elementAt s .mag n.2.1 n.2.2 ≤ m then m else 0
  else 0

/-- NMS (R175): MAG and DIR to SUP. -/
def execNms (s : State) : Host.Outcome State Fault Refusal :=
  datapath (fun s => { s with
    sup := s.sup.fill (frameN s) fun i => byteOf (nmsAt s (columnOf (frameW s) i) (rowOf (frameW s) i)) }) s

end Sys2Proof.Machine
end

