-- ==== Sys2Proof/Machine/Pointwise.lean ====
section
/-! DEFINITION. The pointwise family: COPY, GRAYF, THRESH, LUMA, EXPAND (41_pointwise.md R131 to R136). -/

namespace Sys2Proof.Machine

/-- COPY (R131): the pass-through, all four channels bit for bit. -/
def execCopy (s : State) : Host.Outcome State Fault Refusal :=
  datapath (publish fun k => byteOf (srcAt s k)) s

/-- GRAYF (R132): luminance into R, G and B, alpha kept. -/
def execGrayf (s : State) : Host.Outcome State Fault Refusal :=
  datapath (publish (grayPixelByte (lumaOfPixel s) fun i => srcAt s (4 * i + 3))) s

/-- White above the threshold, black at or below it (R133). -/
def binarize (t l : Nat) : Nat := if t < l then 255 else 0

/-- THRESH (R133). -/
def execThresh (s : State) : Host.Outcome State Fault Refusal :=
  datapath (publish (grayPixelByte (fun i => binarize s.thresholdValue.toNat (lumaOfPixel s i))
    fun i => srcAt s (4 * i + 3))) s

/-- LUMA (R134): edge stage 1. -/
def execLuma (s : State) : Host.Outcome State Fault Refusal :=
  datapath (fun s => { s with luma := s.luma.fill (frameN s) fun i => byteOf (lumaOfPixel s i) }) s

/-- EXPAND (R135): the mark into R, G and B, alpha 255. -/
def execExpand (s : State) : Host.Outcome State Fault Refusal :=
  datapath (publish (grayPixelByte (planeAt s .edge) fun _ => 255)) s

end Sys2Proof.Machine
end

