-- ==== Sys2Proof/Machine/Dispatch.lean ====
section
/-! DEFINITION. One arm per micro-op (30_encoding.md R93). -/

namespace Sys2Proof.Machine

def exec (i : Instr) (s : State) : Host.Outcome State Fault Refusal :=
  match i with
  | .halt => Sys2Proof.Machine.execHalt s
  | .check => Sys2Proof.Machine.execCheck s
  | .chkrad => Sys2Proof.Machine.execChkrad s
  | .chkthr => Sys2Proof.Machine.execChkthr s
  | .copy => Sys2Proof.Machine.execCopy s
  | .grayf => Sys2Proof.Machine.execGrayf s
  | .thresh => Sys2Proof.Machine.execThresh s
  | .luma => Sys2Proof.Machine.execLuma s
  | .expand => Sys2Proof.Machine.execExpand s
  | .blur2d => Sys2Proof.Machine.execBlur2d s
  | .hblur => Sys2Proof.Machine.execHblur s
  | .vblur => Sys2Proof.Machine.execVblur s
  | .sobel => Sys2Proof.Machine.execSobel s
  | .nms => Sys2Proof.Machine.execNms s
  | .dthr => Sys2Proof.Machine.execDthr s
  | .hyst => Sys2Proof.Machine.execHyst s

end Sys2Proof.Machine
end

