-- ==== Sys2Proof/Machine/Flags.lean ====
section
/-! DEFINITION. The core has no condition codes (10_state.md R38); its only flags are the status bits (R30), mirrored by the
output pins (45_host_interface.md R210). -/

namespace Sys2Proof.Machine

/-- The two bits `STATUS.STATE` (R30). -/
def phaseCode : Phase → Word
  | .idle => 0
  | .busy => 1
  | .done => 2
  | .error => 3

/-- `STATUS.DST_VALID`: 1 exactly when `STATE = DONE` (R30). -/
def dstValid (s : State) : Bool := s.phase == .done

/-- `STATUS` as it is read: `STATE` in bits 1 to 0, `DST_VALID` in bit 2, the rest 0 (R30). -/
def statusWord (s : State) : Word := phaseCode s.phase ||| (if dstValid s then 4 else 0)

/-- The output pins (R210). -/
def busyPin (s : State) : Bool := s.phase == .busy
def donePin (s : State) : Bool := s.phase == .done
def errorPin (s : State) : Bool := s.phase == .error

end Sys2Proof.Machine
end

