-- ==== Sys2Proof/Machine/HostPort.lean ====
section
/-! DEFINITION. The host's side: the transactions of 45_host_interface.md R211 to R217, the commands START (R218,
40_sequencer_control.md R111) and ACK (R219), and the `rst` pin (70_reset_and_hazards.md R260). -/

namespace Sys2Proof.Machine

/-- START dispatch (R111), the only computed control transfer; ignored while BUSY (R214). -/
def startCommand (s : State) : State :=
  if s.phase = .busy then s
  else
    let s := clearRecord s
    if 4 < s.filterType.toNat then trap .badFilterType s.filterType.toNat s
    else if 1 < s.enabled.toNat then trap .badOption 6 s
    else { s with
      upc := if s.enabled = 0 then entry 0 else entry s.filterType.toNat
      phase := .busy }

/-- ACK (R219): from DONE or ERROR to IDLE; nothing in IDLE or BUSY. -/
def ackCommand (s : State) : State :=
  match s.phase with
  | .done | .error => { clearRecord s with phase := .idle }
  | .idle | .busy => s

/-- A write to CTRL (10_state.md R29): bit 0 is START and wins, bit 1 is ACK, the rest is ignored. -/
def ctrlWrite (v : Word) (s : State) : State :=
  if v.getLsbD 0 then startCommand s else if v.getLsbD 1 then ackCommand s else s

/-- `HostRead(REG, i)` (R212), in every state. -/
def regRead (s : State) (i : Nat) : Word :=
  match i with
  | 1 => statusWord s
  | 2 => s.errCode
  | 3 => s.errInfo
  | 4 => s.upc.setWidth 32
  | 5 => s.filterType
  | 6 => s.enabled
  | 7 => s.lowThreshold
  | 8 => s.highThreshold
  | 9 => s.blurRadius
  | 10 => s.thresholdValue
  | 11 => s.srcWidth
  | 12 => s.srcHeight
  | 13 => s.srcLen
  | 14 => s.dstWidth
  | 15 => s.dstHeight
  | 16 => s.dstLen
  | _ => 0

/-- `HostWrite(REG, i, v)` (R213); nothing while BUSY (R214). -/
def regWrite (i : Nat) (v : Word) (s : State) : State :=
  if s.phase = .busy then s
  else
    match i with
    | 0 => ctrlWrite v s
    | 5 => { s with filterType := v }
    | 6 => { s with enabled := v }
    | 7 => { s with lowThreshold := v }
    | 8 => { s with highThreshold := v }
    | 9 => { s with blurRadius := v }
    | 10 => { s with thresholdValue := v }
    | 11 => { s with srcWidth := v }
    | 12 => { s with srcHeight := v }
    | 13 => { s with srcLen := v }
    | _ => s

/-- `HostRead(SRC, i)` (R215, R214). -/
def srcRead (s : State) (i : Nat) : Word :=
  if s.phase ≠ .busy ∧ i < 4 * s.params.npixMax then BitVec.ofNat 32 (srcAt s i) else 0

/-- `HostWrite(SRC, i, b)` (R215, R214). -/
def srcWrite (i : Nat) (b : Byte) (s : State) : State :=
  if s.phase ≠ .busy ∧ i < 4 * s.params.npixMax then { s with src := s.src.write i b } else s

/-- `HostRead(DST, i)` (R216); an index beyond the space reads 0 (20_memory.md R66; log entry 14). -/
def dstRead (s : State) (i : Nat) : Word :=
  if dstValid s = true ∧ i < s.dstLen.toNat ∧ i < 4 * s.params.npixMax then BitVec.ofNat 32 (dstAt s i) else 0

/-- `HostRead(P, i)` (R217, R214). -/
def planeRead (s : State) (p : Plane) (i : Nat) : Word :=
  if s.phase ≠ .busy ∧ i < s.params.npixMax then BitVec.ofNat 32 (planeAt s p i) else 0

/-- One transaction (R211). A read changes nothing of the core (20_memory.md R68); its value stands on the port. -/
def transact (t : Transaction) (s : State) : State :=
  match t with
  | .rd i => { s with answer := some (regRead s i) }
  | .wr i v => regWrite i v s
  | .rdbSrc i => { s with answer := some (srcRead s i) }
  | .wrbSrc i b => srcWrite i b s
  | .rdbDst i => { s with answer := some (dstRead s i) }
  | .rdp p i => { s with answer := some (planeRead s p i) }

/-- The `rst` pin (R260, R261): the registers at their reset values, the memories unspecified anew (log entry 4). What the
outside world does next is not the core's. -/
def resetCore (s : State) : State := { State.resetOf s.params (s.epoch + 1) with inputs := s.inputs }

end Sys2Proof.Machine
end

