-- ==== Sys2Proof/Machine/Sequencer.lean ====
section
/-! DEFINITION. The sequencer step (40_sequencer_control.md R110), illegal words (R116), the host environment's failure
(60_exceptions.md R238), and what one input of the outside world does. -/

namespace Sys2Proof.Machine

/-- What a step does with a fetched word (R110): the micro-op it names, or `ILLEGAL_UOP(w)` (R116). -/
def execWord (w : Byte) (s : State) : Host.Outcome State Fault Refusal :=
  match decode w with
  | .op i => exec i s
  | .illegal w => .next (trap .illegalUop w.toNat s)

/-- The sequencer's turn (R110): enabled exactly while BUSY; `env_fail` is tested before the fetch. Outside BUSY the sequencer has
no step and the core is idle (R245; log entry 6). -/
def sequencerTurn (envFail : Bool) (s : State) : Host.Outcome State Fault Refusal :=
  if s.phase = .busy then
    if envFail then .next (trap .computationFailure 0 s) else execWord (fetch s) s
  else .next s

/-- One thing the outside world does. -/
def takeInput (i : Input) (s : State) : Host.Outcome State Fault Refusal :=
  match i with
  | .host t => .next (transact t s)
  | .rst => .next (resetCore s)
  | .tick envFail => sequencerTurn envFail s

/-- The outside world's next action and what remains. A silent world leaves the sequencer its turn with `env_fail` low
(DESIGN CHOICE, log entry 5). -/
def nextInput (s : State) : Input × State :=
  match s.inputs with
  | [] => (.tick false, s)
  | i :: rest => (i, { s with inputs := rest })

/-- The first index of UROM that holds a word, if one does. -/
def romIndex (w : Byte) : Option Upc :=
  ((List.range 32).find? fun u => urom (BitVec.ofNat 5 u) == w).map (BitVec.ofNat 5)

/-- The state in which the next step fetches the word `w`: BUSY, `upc` at an index of UROM that holds it, and no other input
first. UROM cannot be written, so a word it does not hold cannot be fetched: then nothing changes (log entry 12). -/
def selectWord (w : Byte) (s : State) : State :=
  match romIndex w with
  | some u => { s with phase := .busy, upc := u, inputs := [] }
  | none => s

end Sys2Proof.Machine
end

