-- ==== Sys2Proof/Machine/Step.lean ====
section
/-! DEFINITION. One step of the machine: the total order of host transactions, resets and sequencer steps (10_state.md R20,
20_memory.md R76), and the host's probe. -/

namespace Sys2Proof.Machine

/-- One step: the outside world's next action (45_host_interface.md R211, 40_sequencer_control.md R110). -/
def step (s : State) : Host.Outcome State Fault Refusal := takeInput (nextInput s).1 (nextInput s).2

/-- `s` with the instruction of bits `w` where the next step fetches it. -/
def State.withFetchWord (s : State) (nbits w : Nat) : State :=
  selectWord (BitVec.ofNat 8 (w % 2 ^ nbits)) s

end Sys2Proof.Machine
end

