-- ==== Sys2Proof/WellFormed.lean ====
section
/-! DEFINITION. What a well-formed instruction and a well-formed instance are. -/

namespace Sys2Proof

/-- A micro-op has no operand field and no immediate (30_encoding.md R92), so every one is well-formed. -/
def Instr.wf : Instr → Bool
  | .halt | .check | .chkrad | .chkthr | .copy | .grayf | .thresh | .luma | .expand | .blur2d | .hblur | .vblur
  | .sobel | .nms | .dthr | .hyst => true

/-- What 00_scope.md R6 and property P1 of 10_state.md R36 require of an instance: a capacity of at least one pixel, fewer than
2^32 bytes in SRC and DST, and no kernel whose centre weight would fall below zero. -/
def Params.wf (p : Params) : Bool :=
  decide (1 ≤ p.npixMax) && decide (4 * p.npixMax < 2 ^ 32) &&
    (List.range (p.rmax + 1)).all fun r => decide (Machine.coefRest r ≤ 65536)

end Sys2Proof
end

