-- ==== Sys2Proof/Safety.lean ====
section
/-! DEFINITION. What a state that a run can reach looks like, in the terms the statements use: the canonical memories, what each
value of STATUS.STATE goes with (10_state.md R30 to R34), and how far a running invocation has come (30_encoding.md R97,
10_state.md R23). -/

namespace Sys2Proof.Machine

/-- Elements `0 .. n - 1` have been written since reset. -/
abbrev Memory.written {w : Nat} (m : Memory w) (n : Nat) : Prop := ∀ i < n, (m.read i).isSome = true

/-- A memory in canonical form and inside its space. -/
abbrev Memory.canonical {w : Nat} (m : Memory w) (size : Nat) : Prop := m.wf ∧ m.within size

/-- All nine memories are canonical (20_memory.md R60). -/
structure MemoriesCanonical (s : State) : Prop where
  src : s.src.canonical (4 * s.params.npixMax)
  dst : s.dst.canonical (4 * s.params.npixMax)
  luma : s.luma.canonical s.params.npixMax
  tmp : s.tmp.canonical s.params.npixMax
  blur : s.blur.canonical s.params.npixMax
  mag : s.mag.canonical s.params.npixMax
  dir : s.dir.canonical s.params.npixMax
  sup : s.sup.canonical s.params.npixMax
  edge : s.edge.canonical s.params.npixMax

/-- No trap is recorded (R31). -/
abbrev NoTrapRecord (s : State) : Prop := s.errCode = 0 ∧ s.errInfo = 0

/-- The DST descriptor is cleared (R34). -/
abbrev DescriptorCleared (s : State) : Prop := s.dstWidth = 0 ∧ s.dstHeight = 0 ∧ s.dstLen = 0

/-- What CHECK has established for the rest of the invocation (40_sequencer_control.md R113). -/
abbrev FrameChecked (s : State) : Prop :=
  1 ≤ frameW s ∧ 1 ≤ frameH s ∧ frameN s ≤ s.params.npixMax ∧ s.srcLen.toNat = 4 * frameN s ∧
  s.lowThreshold.toNat ≤ 255 ∧ s.highThreshold.toNat ≤ 255 ∧ s.thresholdValue.toNat ≤ 255

/-- DST and its descriptor hold a whole output of the shape of the input (41_pointwise.md R136). -/
abbrev Published (s : State) : Prop :=
  s.dstWidth = s.srcWidth ∧ s.dstHeight = s.srcHeight ∧ s.dstLen.toNat = 4 * frameN s ∧ s.dst.written (4 * frameN s)

/-- The indices of UROM that hold a CHECK at a program's entry, and those that hold a HALT (10_state.md R37). -/
abbrev EntryIndices : List Nat := [0, 4, 8, 12, 16]
abbrev HaltIndices : List Nat := [2, 6, 11, 14, 26]

/-- The entry of the micro-program an index of UROM belongs to. -/
def programEntry (u : Nat) : Nat := if u < 16 then u / 4 * 4 else 16

/-- The entry START selects (40_sequencer_control.md R111). -/
def selectedEntry (s : State) : Nat := if s.enabled = 0 then 0 else 4 * s.filterType.toNat

/-- Where a running invocation stands, and what the micro-ops before it have done. -/
structure Progress (s : State) : Prop where
  /-- `upc` is at a word that is no filler. -/
  position : s.upc.toNat ≤ 26 ∧ s.upc.toNat ∉ [3, 7, 15]
  /-- The program is the one the options select. -/
  filterType : s.filterType.toNat ≤ 4
  enabled : s.enabled.toNat ≤ 1
  program : programEntry s.upc.toNat = selectedEntry s
  /-- CHECK has run once the entry is left; CHKRAD before BLUR2D; CHKTHR before the stages of the edge program. -/
  frame : s.upc.toNat ∉ EntryIndices → FrameChecked s
  radius : s.upc.toNat = 10 → s.blurRadius.toNat ≤ s.params.rmax
  thresholds : 18 ≤ s.upc.toNat → s.lowThreshold.toNat ≤ s.highThreshold.toNat
  /-- DST and its descriptor are whole at a HALT, and the descriptor is cleared before it. -/
  cleared : s.upc.toNat ∉ HaltIndices → DescriptorCleared s
  published : s.upc.toNat ∈ HaltIndices → Published s
  /-- Every plane a micro-op reads has been written whole (R23). -/
  luma : s.upc.toNat = 19 → s.luma.written (frameN s)
  tmp : s.upc.toNat = 20 → s.tmp.written (frameN s)
  blur : s.upc.toNat = 21 → s.blur.written (frameN s)
  mag : s.upc.toNat = 22 → s.mag.written (frameN s)
  dir : s.upc.toNat = 22 → s.dir.written (frameN s)
  sup : s.upc.toNat = 23 → s.sup.written (frameN s)
  edge : s.upc.toNat = 24 ∨ s.upc.toNat = 25 → s.edge.written (frameN s)

/-- A complete valid output (10_state.md R30): its own shape, at least one pixel, every byte of it written. -/
abbrev OutputComplete (s : State) : Prop :=
  s.upc.toNat ∈ HaltIndices ∧ 1 ≤ s.dstWidth.toNat ∧ 1 ≤ s.dstHeight.toNat ∧
  s.dstWidth.toNat * s.dstHeight.toNat ≤ s.params.npixMax ∧
  s.dstLen.toNat = 4 * (s.dstWidth.toNat * s.dstHeight.toNat) ∧ s.dst.written s.dstLen.toNat

/-- The invariant of every run: it holds after reset, and every step keeps it. -/
structure Invariant (s : State) : Prop where
  params : s.params.wf = true
  memories : MemoriesCanonical s
  idle : s.phase = .idle → NoTrapRecord s ∧ DescriptorCleared s
  busy : s.phase = .busy → NoTrapRecord s ∧ Progress s
  done : s.phase = .done → NoTrapRecord s ∧ OutputComplete s
  error : s.phase = .error → 1 ≤ s.errCode.toNat ∧ s.errCode.toNat ≤ 9

/-! ### The computation as the source writes it, for the statements to hold the micro-ops against -/

/-- The coordinate nearest to `c` inside `0 .. n - 1` (42_gaussian.md R150). -/
def nearestIn (n : Nat) (c : Int) : Nat := if c ≤ 0 then 0 else if c < n then c.toNat else n - 1

/-- The weighted sum of seven samples, rounded to nearest and kept in a byte (R152). -/
def sevenTap (f : Int → Nat) : Nat := min 255 (((∑ k ∈ Finset.range 7, k1.getD k 0 * f ((k : Int) - 3)) + 32768) / 65536)

/-- The sum of `f dx dy` over the offsets `-r .. r` in both directions. -/
def overKernel {A : Type} [AddCommMonoid A] (r : Nat) (f : Int → Int → A) : A :=
  ∑ j ∈ Finset.range (2 * r + 1), ∑ i ∈ Finset.range (2 * r + 1), f ((i : Int) - r) ((j : Int) - r)

/-- The weighted sum of a square footprint, rounded to nearest and kept in a byte (R151). -/
def squareTap (r : Nat) (f : Int → Int → Nat) : Nat :=
  min 255 ((overKernel r (fun dx dy => coef2d r dx.natAbs dy.natAbs * f dx dy) + 32768) / 65536)

/-- A weak mark is settled by the marks of the eight neighbours: those before it in raster order as the pass has left them
(`after`), those behind it as they were (`before`) (44_threshold_hysteresis.md R193). -/
def settledMark (before after : Nat → Nat → Nat) (x y : Nat) : Nat :=
  if before x y = 128 then
    if after (x - 1) (y - 1) = 255 ∨ after x (y - 1) = 255 ∨ after (x + 1) (y - 1) = 255 ∨ after (x - 1) y = 255 ∨
       before (x + 1) y = 255 ∨ before (x - 1) (y + 1) = 255 ∨ before x (y + 1) = 255 ∨ before (x + 1) (y + 1) = 255
    then 255 else 0
  else before x y

/-- The edge pipeline over a `w` by `h` frame of channel values `pix x y c`: luminance `L`, the two blur passes `T` and `B`,
magnitude `M` and direction `D`, suppressed magnitude `S`, first marks `K` and settled marks `E`, each stage a function of the one
before it (30_encoding.md R95). -/
structure CannyStages (w h lo hi : Nat) (pix : Nat → Nat → Nat → Nat) (L T B M D S K E : Nat → Nat → Nat) : Prop where
  luma : ∀ x < w, ∀ y < h, L x y = (299 * pix x y 0 + 587 * pix x y 1 + 114 * pix x y 2 + 500) / 1000
  rows : ∀ x < w, ∀ y < h, T x y = sevenTap fun k => L (nearestIn w (x + k)) y
  columns : ∀ x < w, ∀ y < h, B x y = sevenTap fun k => T x (nearestIn h (y + k))
  magnitude : ∀ x < w, ∀ y < h, M x y = if isInterior w h x y then magnitude (gradX B x y) (gradY B x y) else 0
  direction : ∀ x < w, ∀ y < h, D x y = if isInterior w h x y then sector (gradX B x y) (gradY B x y) else 0
  suppressed : ∀ x < w, ∀ y < h, S x y =
    if isInterior w h x y ∧
       M (sectorNeighbours (D x y) x y).1.1 (sectorNeighbours (D x y) x y).1.2 ≤ M x y ∧
       M (sectorNeighbours (D x y) x y).2.1 (sectorNeighbours (D x y) x y).2.2 ≤ M x y
    then M x y else 0
  marked : ∀ x < w, ∀ y < h, K x y = if hi ≤ S x y then 255 else if lo ≤ S x y then 128 else 0
  settled : ∀ x < w, ∀ y < h, E x y = if isInterior w h x y then settledMark K E x y else K x y

/-- The micro-ops that write DST, and those that write planes (20_memory.md R61). -/
abbrev dstWriters : List Instr := [.copy, .grayf, .thresh, .blur2d, .expand]
abbrev planeWriters : List Instr := [.luma, .hblur, .vblur, .sobel, .nms, .dthr, .hyst]

end Sys2Proof.Machine
end

