-- ==== Sys2Proof/Certificates/Slice0/Obligations.lean ====
section
/-! DEFINITION. The statements for the provers, from the numbered rules of the spec. A statement names the rule it formalises. In
a result statement the equation `t = { s with … }` is the frame: every field of the state not named in it is unchanged, and
every unit of a written memory outside the stored ones reads as before. -/

open Sys2Proof Sys2Proof.Machine

/-! ### Words, decoding, the ROM -/

/-- The sixteen words of R93, each bit by bit as its group and function, decode to their micro-ops. -/
def Obligations.SixteenWordsDecode : Prop :=
  decode 0b00010000 = .op .halt ∧
  decode 0b00100000 = .op .check ∧ decode 0b00100001 = .op .chkrad ∧ decode 0b00100010 = .op .chkthr ∧
  decode 0b00110000 = .op .copy ∧ decode 0b00110001 = .op .grayf ∧ decode 0b00110010 = .op .thresh ∧
  decode 0b00110011 = .op .luma ∧ decode 0b00110100 = .op .expand ∧
  decode 0b01000000 = .op .blur2d ∧ decode 0b01000001 = .op .hblur ∧ decode 0b01000010 = .op .vblur ∧
  decode 0b01010000 = .op .sobel ∧ decode 0b01010001 = .op .nms ∧
  decode 0b01100000 = .op .dthr ∧ decode 0b01100001 = .op .hyst

/-- R99: for every byte the decoder answers one of the sixteen micro-ops, and then the byte is that micro-op's word, or "illegal";
and decoding a micro-op's word gives the micro-op. -/
def Obligations.DecoderTotalAndInvertsEncoder : Prop :=
  (∀ w : Byte, (∃ i, w = encode i ∧ decode w = .op i) ∨ ((∀ i, w ≠ encode i) ∧ decode w = .illegal w)) ∧
  ∀ i : Instr, i.wf = true → decode (encode i) = .op i

/-- R116: a word that is not one of the sixteen raises ILLEGAL_UOP with the word zero-extended, `upc` and everything else
unchanged, and in no state that meets the invariant does the ROM yield such a word. -/
def Obligations.IllegalWordTraps : Prop :=
  (∀ (s : State) (w : Byte), (∀ i, w ≠ encode i) →
    execWord w s = .next { s with errCode := 9, errInfo := w.setWidth 32, phase := .error }) ∧
  isContractViolation .illegalUop = false ∧
  ∀ s : State, Invariant s → s.phase = .busy → ∃ i, decode (fetch s) = .op i

/-- R37 and R98: the thirty-two words of UROM, and the five entries. -/
def Obligations.RomHoldsTheMicroPrograms : Prop :=
  (List.range 32).map (fun u => urom (BitVec.ofNat 5 u)) =
    [0x20, 0x30, 0x10, 0x00, 0x20, 0x31, 0x10, 0x00, 0x20, 0x21, 0x40, 0x10, 0x20, 0x32, 0x10, 0x00,
     0x20, 0x22, 0x33, 0x41, 0x42, 0x50, 0x51, 0x60, 0x61, 0x34, 0x10, 0x00, 0x00, 0x00, 0x00, 0x00] ∧
  (List.range 5).map entry = [0x00, 0x04, 0x08, 0x0C, 0x10]

/-! ### The step -/

/-- R110: while BUSY, a step runs the micro-op the fetched word decodes to, on the state less the input the step consumed. -/
def Obligations.StepRunsDecodedInstruction : Prop :=
  ∀ (s : State) (i : Instr), s.phase = .busy → decode (fetch s) = .op i →
    (s.inputs = [] → step s = exec i s) ∧
    ∀ rest, s.inputs = .tick false :: rest → step s = exec i { s with inputs := rest }

/-- R238, R239: while BUSY, a step at which `env_fail` is sampled true raises COMPUTATION_FAILURE whatever word `upc` names. -/
def Obligations.EnvFailureTrapsBeforeFetch : Prop :=
  ∀ (s : State) (rest : List Input), s.phase = .busy → s.inputs = .tick true :: rest →
    step s = .next { s with inputs := rest, errCode := 8, errInfo := 0, phase := .error }

/-- R110, R245: outside BUSY the sequencer has no step; the model's step then only consumes the input (log entry 6). -/
def Obligations.SequencerIdleOutsideBusy : Prop :=
  ∀ s : State, s.phase ≠ .busy →
    (s.inputs = [] → step s = .next s) ∧
    ∀ envFail rest, s.inputs = .tick envFail :: rest → step s = .next { s with inputs := rest }

/-- R211: a host transaction and a reset are each one step of their own. -/
def Obligations.StepPerformsTransactionsAndReset : Prop :=
  ∀ (s : State) (rest : List Input),
    (∀ t, s.inputs = .host t :: rest → step s = .next (transact t { s with inputs := rest })) ∧
    (s.inputs = .rst :: rest → step s = .next { State.resetOf s.params (s.epoch + 1) with inputs := rest })

/-! ### Traps, checks, HALT -/

/-- R240, R230: trap entry writes the cause code, the detail and the ERROR state, and nothing else; STATUS then reads 3. -/
def Obligations.TrapEntryWritesThreeRegisters : Prop :=
  (∀ (c : Cause) (info : Nat) (s : State), info < 2 ^ 32 →
    trap c info s = { s with errCode := causeCode c, errInfo := BitVec.ofNat 32 info, phase := .error } ∧
    statusWord (trap c info s) = 3) ∧
  [Cause.badFilterType, .badOption, .zeroDim, .dimRange, .lenMismatch, .badRadius, .badThresholds,
    .computationFailure, .illegalUop].map causeCode = [1, 2, 3, 4, 5, 6, 7, 8, 9]

/-- R113: CHECK completes when no test fires, and writes nothing but the advance of `upc`. -/
def Obligations.CheckPassesValidFrame : Prop :=
  ∀ s : State, FrameChecked s → exec .check s = .next { s with upc := s.upc + 1 }

/-- R113, R239: CHECK reports the first test that fires, in the rule's order, and writes nothing else. -/
def Obligations.CheckReportsFirstViolation : Prop :=
  encode .check = 0x20 ∧
  ∀ s : State,
    let raised (code info : Word) : State := { s with errCode := code, errInfo := info, phase := .error }
    let n := s.srcWidth.toNat * s.srcHeight.toNat
    exec .check s = .next (
      if s.srcWidth = 0 then raised 3 11
      else if s.srcHeight = 0 then raised 3 12
      else if n > s.params.npixMax then raised 4 0
      else if s.srcLen.toNat ≠ 4 * n then raised 5 s.srcLen
      else if s.lowThreshold.toNat > 255 then raised 2 7
      else if s.highThreshold.toNat > 255 then raised 2 8
      else if s.thresholdValue.toNat > 255 then raised 2 10
      else { s with upc := s.upc + 1 })

/-- R114: CHKRAD passes up to RMAX and raises BAD_RADIUS with the radius above it. -/
def Obligations.ChkradBoundsRadius : Prop :=
  encode .chkrad = 0x21 ∧
  ∀ s : State,
    (s.blurRadius.toNat ≤ s.params.rmax → exec .chkrad s = .next { s with upc := s.upc + 1 }) ∧
    (s.params.rmax < s.blurRadius.toNat →
      exec .chkrad s = .next { s with errCode := 6, errInfo := s.blurRadius, phase := .error })

/-- R115: CHKTHR passes when LOW is at most HIGH and raises BAD_THRESHOLDS with both thresholds otherwise. -/
def Obligations.ChkthrOrdersThresholds : Prop :=
  encode .chkthr = 0x22 ∧
  ∀ s : State, s.lowThreshold.toNat ≤ 255 → s.highThreshold.toNat ≤ 255 →
    (s.lowThreshold.toNat ≤ s.highThreshold.toNat → exec .chkthr s = .next { s with upc := s.upc + 1 }) ∧
    (s.highThreshold.toNat < s.lowThreshold.toNat →
      exec .chkthr s = .next { s with
        errCode := 7
        errInfo := BitVec.ofNat 32 (s.highThreshold.toNat * 256 + s.lowThreshold.toNat)
        phase := .error })

/-- R112: HALT makes the state DONE and DST valid, `upc` unchanged; STATUS then reads 6. -/
def Obligations.HaltPublishes : Prop :=
  encode .halt = 0x10 ∧
  ∀ s : State, exec .halt s = .next { s with phase := .done } ∧
    statusWord { s with phase := .done } = 6 ∧ dstValid { s with phase := .done } = true

/-! ### The pointwise micro-ops -/

/-- R131, R136: COPY. -/
def Obligations.CopyCopiesEveryByte : Prop :=
  encode .copy = 0x30 ∧
  ∀ s : State, s.params.wf = true → frameN s ≤ s.params.npixMax → ∃ t, exec .copy s = .next t ∧
    t = { s with
      upc := s.upc + 1, dst := t.dst
      dstWidth := s.srcWidth, dstHeight := s.srcHeight, dstLen := BitVec.ofNat 32 (4 * frameN s) } ∧
    (∀ i < 4 * frameN s, t.dst.read i = some (s.src.readOr (Config.unwritten s.epoch .src) i)) ∧
    ∀ i, 4 * frameN s ≤ i → t.dst.read i = s.dst.read i

/-- R132, R130, R136: GRAYF. -/
def Obligations.GrayfWritesLuminance : Prop :=
  encode .grayf = 0x31 ∧
  ∀ s : State, s.params.wf = true → frameN s ≤ s.params.npixMax → ∃ t, exec .grayf s = .next t ∧
    t = { s with
      upc := s.upc + 1, dst := t.dst
      dstWidth := s.srcWidth, dstHeight := s.srcHeight, dstLen := BitVec.ofNat 32 (4 * frameN s) } ∧
    (∀ i < frameN s,
      let l := (299 * srcAt s (4 * i) + 587 * srcAt s (4 * i + 1) + 114 * srcAt s (4 * i + 2) + 500) / 1000
      l ≤ 255 ∧
      t.dst.read (4 * i) = some (BitVec.ofNat 8 l) ∧ t.dst.read (4 * i + 1) = some (BitVec.ofNat 8 l) ∧
      t.dst.read (4 * i + 2) = some (BitVec.ofNat 8 l) ∧
      t.dst.read (4 * i + 3) = some (BitVec.ofNat 8 (srcAt s (4 * i + 3)))) ∧
    ∀ i, 4 * frameN s ≤ i → t.dst.read i = s.dst.read i

/-- R133, R130, R136: THRESH, strictly above the threshold white, else black. -/
def Obligations.ThreshBinarizes : Prop :=
  encode .thresh = 0x32 ∧
  ∀ s : State, s.params.wf = true → frameN s ≤ s.params.npixMax → ∃ t, exec .thresh s = .next t ∧
    t = { s with
      upc := s.upc + 1, dst := t.dst
      dstWidth := s.srcWidth, dstHeight := s.srcHeight, dstLen := BitVec.ofNat 32 (4 * frameN s) } ∧
    (∀ i < frameN s,
      let l := (299 * srcAt s (4 * i) + 587 * srcAt s (4 * i + 1) + 114 * srcAt s (4 * i + 2) + 500) / 1000
      let v : Byte := if l > s.thresholdValue.toNat then 255 else 0
      t.dst.read (4 * i) = some v ∧ t.dst.read (4 * i + 1) = some v ∧ t.dst.read (4 * i + 2) = some v ∧
      t.dst.read (4 * i + 3) = some (BitVec.ofNat 8 (srcAt s (4 * i + 3)))) ∧
    ∀ i, 4 * frameN s ≤ i → t.dst.read i = s.dst.read i

/-- R134, R130: LUMA. -/
def Obligations.LumaWritesLuminancePlane : Prop :=
  encode .luma = 0x33 ∧
  ∀ s : State, frameN s ≤ s.params.npixMax → ∃ t, exec .luma s = .next t ∧
    t = { s with upc := s.upc + 1, luma := t.luma } ∧
    (∀ i < frameN s, t.luma.read i = some (BitVec.ofNat 8
      ((299 * srcAt s (4 * i) + 587 * srcAt s (4 * i + 1) + 114 * srcAt s (4 * i + 2) + 500) / 1000))) ∧
    ∀ i, frameN s ≤ i → t.luma.read i = s.luma.read i

/-- R135, R136: EXPAND. -/
def Obligations.ExpandBroadcastsMarks : Prop :=
  encode .expand = 0x34 ∧
  ∀ s : State, s.params.wf = true → frameN s ≤ s.params.npixMax → ∃ t, exec .expand s = .next t ∧
    t = { s with
      upc := s.upc + 1, dst := t.dst
      dstWidth := s.srcWidth, dstHeight := s.srcHeight, dstLen := BitVec.ofNat 32 (4 * frameN s) } ∧
    (∀ i < frameN s,
      let v : Byte := BitVec.ofNat 8 (planeAt s .edge i)
      t.dst.read (4 * i) = some v ∧ t.dst.read (4 * i + 1) = some v ∧ t.dst.read (4 * i + 2) = some v ∧
      t.dst.read (4 * i + 3) = some 255) ∧
    ∀ i, 4 * frameN s ≤ i → t.dst.read i = s.dst.read i

/-- R137 (b): GRAYF on its own output writes the same output again. -/
def Obligations.GrayscaleIdempotent : Prop :=
  ∀ s : State, frameN s ≤ s.params.npixMax →
    ∃ t u, exec .grayf s = .next t ∧ exec .grayf { t with src := t.dst } = .next u ∧
      ∀ i < 4 * frameN s, u.dst.read i = t.dst.read i

/-- R133: for a fixed input, a pixel that is white at a threshold is white at every lower threshold. -/
def Obligations.ThresholdMonotone : Prop :=
  ∀ (s : State) (higher : Word), frameN s ≤ s.params.npixMax → s.thresholdValue.toNat ≤ higher.toNat →
    ∃ t u, exec .thresh s = .next t ∧ exec .thresh { s with thresholdValue := higher } = .next u ∧
      ∀ i < frameN s, u.dst.read (4 * i) = some 255 → t.dst.read (4 * i) = some 255

/-! ### The Gaussian micro-ops and their coefficients -/

/-- R151, R150, R136: BLUR2D, every channel on its own, the footprint sampled at the nearest valid pixel. -/
def Obligations.Blur2dConvolvesEveryChannel : Prop :=
  encode .blur2d = 0x40 ∧
  ∀ s : State, s.params.wf = true → frameN s ≤ s.params.npixMax → s.blurRadius.toNat ≤ s.params.rmax →
    ∃ t, exec .blur2d s = .next t ∧
    t = { s with
      upc := s.upc + 1, dst := t.dst
      dstWidth := s.srcWidth, dstHeight := s.srcHeight, dstLen := BitVec.ofNat 32 (4 * frameN s) } ∧
    (∀ x < frameW s, ∀ y < frameH s, ∀ c < 4,
      t.dst.read (4 * (y * frameW s + x) + c) = some (BitVec.ofNat 8 (squareTap s.blurRadius.toNat fun dx dy =>
        srcAt s (4 * (nearestIn (frameH s) (y + dy) * frameW s + nearestIn (frameW s) (x + dx)) + c)))) ∧
    ∀ i, 4 * frameN s ≤ i → t.dst.read i = s.dst.read i

/-- R152, R150: HBLUR. -/
def Obligations.HblurConvolvesRows : Prop :=
  encode .hblur = 0x41 ∧
  ∀ s : State, frameN s ≤ s.params.npixMax → ∃ t, exec .hblur s = .next t ∧
    t = { s with upc := s.upc + 1, tmp := t.tmp } ∧
    (∀ x < frameW s, ∀ y < frameH s,
      t.tmp.read (y * frameW s + x) = some (BitVec.ofNat 8 (sevenTap fun k =>
        planeAt s .luma (y * frameW s + nearestIn (frameW s) (x + k))))) ∧
    ∀ i, frameN s ≤ i → t.tmp.read i = s.tmp.read i

/-- R153, R150: VBLUR. -/
def Obligations.VblurConvolvesColumns : Prop :=
  encode .vblur = 0x42 ∧
  ∀ s : State, frameN s ≤ s.params.npixMax → ∃ t, exec .vblur s = .next t ∧
    t = { s with upc := s.upc + 1, blur := t.blur } ∧
    (∀ x < frameW s, ∀ y < frameH s,
      t.blur.read (y * frameW s + x) = some (BitVec.ofNat 8 (sevenTap fun k =>
        planeAt s .tmp (nearestIn (frameH s) (y + k) * frameW s + x)))) ∧
    ∀ i, frameN s ≤ i → t.blur.read i = s.blur.read i

/-- R154 (a), (b): every output of the three blurs lies between any bounds of the samples in its footprint, so a constant
footprint gives its constant. -/
def Obligations.BlurStaysWithinFootprint : Prop :=
  (∀ (f : Int → Nat) (a b : Nat), b ≤ 255 → (∀ k, -3 ≤ k → k ≤ 3 → a ≤ f k ∧ f k ≤ b) →
    a ≤ sevenTap f ∧ sevenTap f ≤ b) ∧
  ∀ (p : Params) (r : Nat) (f : Int → Int → Nat) (a b : Nat), p.wf = true → r ≤ p.rmax → b ≤ 255 →
    (∀ dx dy, -(r : Int) ≤ dx → dx ≤ r → -(r : Int) ≤ dy → dy ≤ r → a ≤ f dx dy ∧ f dx dy ≤ b) →
    a ≤ squareTap r f ∧ squareTap r f ≤ b

/-- R151: with radius 0, BLUR2D leaves exactly what COPY leaves. -/
def Obligations.RadiusZeroIsIdentity : Prop :=
  ∀ s : State, s.blurRadius = 0 → frameN s ≤ s.params.npixMax → ∃ t, exec .blur2d s = .next t ∧ exec .copy s = .next t

/-- R35, R36: the seven taps and the printed tables of COEF2D. -/
def Obligations.CoefficientTablesAsPrinted : Prop :=
  k1 = [291, 3539, 15862, 26152, 15862, 3539, 291] ∧ k1.sum = 65536 ∧
  coef2d 0 0 0 = 65536 ∧
  (coef2d 1 0 0 = 62716 ∧ coef2d 1 0 1 = 697 ∧ coef2d 1 1 1 = 8) ∧
  (coef2d 2 0 0 = 23452 ∧ coef2d 2 0 1 = 7615 ∧ coef2d 2 0 2 = 261 ∧ coef2d 2 1 1 = 2472 ∧ coef2d 2 1 2 = 85 ∧
    coef2d 2 2 2 = 3) ∧
  (coef2d 3 0 0 = 10436 ∧ coef2d 3 0 1 = 6330 ∧ coef2d 3 0 2 = 1412 ∧ coef2d 3 0 3 = 116 ∧ coef2d 3 1 1 = 3839 ∧
    coef2d 3 1 2 = 857 ∧ coef2d 3 1 3 = 70 ∧ coef2d 3 2 2 = 191 ∧ coef2d 3 2 3 = 16 ∧ coef2d 3 3 3 = 1)

/-- R36 P1 to P4: for every radius of a well-formed instance the weights are symmetric, at most 65536, and sum to 65536; radius 0
is the identity. -/
def Obligations.CoefficientsAreNormalised : Prop :=
  coef2d 0 0 0 = 65536 ∧
  (∀ r i j, coef2d r i j = coef2d r j i) ∧
  ∀ (p : Params) (r : Nat), p.wf = true → r ≤ p.rmax →
    overKernel r (fun dx dy => coef2d r dx.natAbs dy.natAbs) = 65536 ∧
    ∀ i ≤ r, ∀ j ≤ r, coef2d r i j ≤ 65536

/-- R36 P5, R41: where the model's exact bounds settle the rounding (always up to radius 3), the weight of every offset but the
centre is R41's quantisation of the real weight. The bounds are the model's (log entry 11). R41's kernel begins at radius 1: at
radius 0 the first clause compares the two bounds of an empty quotient and says nothing. K1 is not covered; its printed values
are in `Obligations.CoefficientTablesAsPrinted`. -/
def Obligations.CoefficientsQuantiseTheGaussian : Prop :=
  (∀ r ≤ 3, ∀ i ≤ r, ∀ j ≤ r, coefLo r (i * i + j * j) = coefHi r (i * i + j * j)) ∧
  ∀ r i j : Nat, 1 ≤ r → i ≤ r → j ≤ r → ¬(i = 0 ∧ j = 0) →
    coefLo r (i * i + j * j) = coefHi r (i * i + j * j) →
    (coef2d r i j : Int) =
      ⌊65536 * Real.exp (-((i : ℝ) ^ 2 + (j : ℝ) ^ 2) * 9 / (2 * (r : ℝ) ^ 2)) /
        overKernel r (fun dx dy => Real.exp (-((dx : ℝ) ^ 2 + (dy : ℝ) ^ 2) * 9 / (2 * (r : ℝ) ^ 2))) + 1 / 2⌋

/-! ### The gradient micro-ops -/

/-- R170, R171, R173: SOBEL. -/
def Obligations.SobelComputesGradientField : Prop :=
  encode .sobel = 0x50 ∧
  ∀ s : State, frameN s ≤ s.params.npixMax → ∃ t, exec .sobel s = .next t ∧
    t = { s with upc := s.upc + 1, mag := t.mag, dir := t.dir } ∧
    (∀ x < frameW s, ∀ y < frameH s,
      let b (x y : Nat) : Int := planeAt s .blur (y * frameW s + x)
      let gx := -b (x - 1) (y - 1) + b (x + 1) (y - 1) - 2 * b (x - 1) y + 2 * b (x + 1) y
        - b (x - 1) (y + 1) + b (x + 1) (y + 1)
      let gy := -b (x - 1) (y - 1) - 2 * b x (y - 1) - b (x + 1) (y - 1)
        + b (x - 1) (y + 1) + 2 * b x (y + 1) + b (x + 1) (y + 1)
      if 1 ≤ x ∧ x < frameW s - 1 ∧ 1 ≤ y ∧ y < frameH s - 1 then
        t.mag.read (y * frameW s + x) = some (BitVec.ofNat 8 (min 255 (rsqrt (gx ^ 2 + gy ^ 2).toNat))) ∧
        t.dir.read (y * frameW s + x) = some (BitVec.ofNat 2 (sector gx gy))
      else t.mag.read (y * frameW s + x) = some 0 ∧ t.dir.read (y * frameW s + x) = some 0) ∧
    ∀ i, frameN s ≤ i → t.mag.read i = s.mag.read i ∧ t.dir.read i = s.dir.read i

/-- R173: `rsqrt` is the square root rounded to nearest, and a tie cannot occur. -/
def Obligations.RsqrtRoundsToNearest : Prop :=
  (∀ n : Nat, |Real.sqrt n - (rsqrt n : ℝ)| < 1 / 2) ∧
  ∀ gx gy : Int, magnitude gx gy = min 255 (rsqrt (gx ^ 2 + gy ^ 2).toNat)

/-- R172: the sector code is the class of the absolute angle of the gradient. The boundary angles are the spec's from general
knowledge (93_implementation_defined.md G1, G2; log entry 13). -/
def Obligations.SectorClassifiesAbsoluteAngle : Prop :=
  ∀ gx gy : Int,
    let angle := |Complex.arg (gx + gy * Complex.I)|
    sector gx gy =
      if angle < Real.pi / 8 then 0
      else if angle < 3 * Real.pi / 8 then 1
      else if angle < 5 * Real.pi / 8 then 2
      else if angle < 7 * Real.pi / 8 then 3
      else 0

/-- R175, R174: NMS. -/
def Obligations.NmsKeepsLocalMaxima : Prop :=
  encode .nms = 0x51 ∧
  ∀ s : State, frameN s ≤ s.params.npixMax → ∃ t, exec .nms s = .next t ∧
    t = { s with upc := s.upc + 1, sup := t.sup } ∧
    (∀ x < frameW s, ∀ y < frameH s,
      let m (x y : Nat) := planeAt s .mag (y * frameW s + x)
      let keeps := match planeAt s .dir (y * frameW s + x) with
        | 0 => m (x - 1) y ≤ m x y ∧ m (x + 1) y ≤ m x y
        | 1 => m (x + 1) (y - 1) ≤ m x y ∧ m (x - 1) (y + 1) ≤ m x y
        | 2 => m x (y - 1) ≤ m x y ∧ m x (y + 1) ≤ m x y
        | _ => m (x - 1) (y - 1) ≤ m x y ∧ m (x + 1) (y + 1) ≤ m x y
      (1 ≤ x ∧ x < frameW s - 1 ∧ 1 ≤ y ∧ y < frameH s - 1 ∧ keeps →
        t.sup.read (y * frameW s + x) = some (BitVec.ofNat 8 (m x y))) ∧
      (¬(1 ≤ x ∧ x < frameW s - 1 ∧ 1 ≤ y ∧ y < frameH s - 1 ∧ keeps) →
        t.sup.read (y * frameW s + x) = some 0)) ∧
    ∀ i, frameN s ≤ i → t.sup.read i = s.sup.read i

/-- R176 (a), (b), (c): after SOBEL and NMS a suppressed value is the magnitude or 0; all three planes are 0 on the border; a
zero magnitude is suppressed to 0. -/
def Obligations.SuppressionOnlyZeroes : Prop :=
  ∀ s : State, frameN s ≤ s.params.npixMax → ∃ t u, exec .sobel s = .next t ∧ exec .nms t = .next u ∧
    ∀ x < frameW s, ∀ y < frameH s,
      (elementAt u .sup x y = elementAt u .mag x y ∨ elementAt u .sup x y = 0) ∧
      (elementAt u .mag x y = 0 → elementAt u .sup x y = 0) ∧
      (¬isInterior (frameW s) (frameH s) x y →
        elementAt u .mag x y = 0 ∧ elementAt u .dir x y = 0 ∧ elementAt u .sup x y = 0)

/-! ### The edge-marking micro-ops -/

/-- R190: DTHR. -/
def Obligations.DthrMarksEveryPixel : Prop :=
  encode .dthr = 0x60 ∧
  ∀ s : State, frameN s ≤ s.params.npixMax → ∃ t, exec .dthr s = .next t ∧
    t = { s with upc := s.upc + 1, edge := t.edge } ∧
    (∀ i < frameN s, t.edge.read i = some (
      if planeAt s .sup i ≥ s.highThreshold.toNat then 255
      else if planeAt s .sup i ≥ s.lowThreshold.toNat then 128 else 0)) ∧
    ∀ i, frameN s ≤ i → t.edge.read i = s.edge.read i

/-- R192, R193: HYST is the single raster-order pass: a weak interior element is settled by its four earlier neighbours as the
pass left them and its four later ones as they were; everything else keeps its content. -/
def Obligations.HystIsOneRasterPass : Prop :=
  encode .hyst = 0x61 ∧
  ∀ s : State, frameN s ≤ s.params.npixMax → ∃ t, exec .hyst s = .next t ∧
    t = { s with upc := s.upc + 1, edge := t.edge } ∧
    (∀ x y, isInterior (frameW s) (frameH s) x y →
      elementAt t .edge x y = settledMark (elementAt s .edge) (elementAt t .edge) x y) ∧
    ∀ i, (∀ x y, isInterior (frameW s) (frameH s) x y → i ≠ y * frameW s + x) → t.edge.read i = s.edge.read i

/-- R194: DTHR then HYST leave 0 or 255 at every interior element, and the mark of DTHR on the border. -/
def Obligations.HystLeavesBinaryInterior : Prop :=
  ∀ s : State, frameN s ≤ s.params.npixMax → ∃ t u, exec .dthr s = .next t ∧ exec .hyst t = .next u ∧
    ∀ x < frameW s, ∀ y < frameH s,
      (isInterior (frameW s) (frameH s) x y → elementAt u .edge x y = 0 ∨ elementAt u .edge x y = 255) ∧
      (¬isInterior (frameW s) (frameH s) x y → elementAt u .edge x y = elementAt t .edge x y)

/-! ### What no micro-op does -/

/-- R61: no micro-op writes SRC, an option register or a SRC register; the DST-writing micro-ops write no plane, and the
plane-writing ones neither DST nor its descriptor; the model's own fields stay as they are. -/
def Obligations.MicroOpsReachOnlyTheirSpaces : Prop :=
  ∀ (i : Instr) (s t : State), exec i s = .next t →
    (t.src = s.src ∧ t.filterType = s.filterType ∧ t.enabled = s.enabled ∧ t.lowThreshold = s.lowThreshold ∧
      t.highThreshold = s.highThreshold ∧ t.blurRadius = s.blurRadius ∧ t.thresholdValue = s.thresholdValue ∧
      t.srcWidth = s.srcWidth ∧ t.srcHeight = s.srcHeight ∧ t.srcLen = s.srcLen) ∧
    (t.params = s.params ∧ t.epoch = s.epoch ∧ t.inputs = s.inputs ∧ t.answer = s.answer) ∧
    (i ∉ planeWriters → t.luma = s.luma ∧ t.tmp = s.tmp ∧ t.blur = s.blur ∧ t.mag = s.mag ∧ t.dir = s.dir ∧
      t.sup = s.sup ∧ t.edge = s.edge) ∧
    (i ∉ dstWriters → t.dst = s.dst ∧ t.dstWidth = s.dstWidth ∧ t.dstHeight = s.dstHeight ∧ t.dstLen = s.dstLen)

/-- R232: no datapath micro-op raises: on every frame the planes hold, and a radius the ROM holds, it completes with the trap
record and the state as they were. -/
def Obligations.DatapathNeverRaises : Prop :=
  ∀ i ∈ dstWriters ++ planeWriters, ∀ s : State, frameN s ≤ s.params.npixMax → s.blurRadius.toNat ≤ s.params.rmax →
    ∃ t, exec i s = .next t ∧ t.phase = s.phase ∧ t.errCode = s.errCode ∧ t.errInfo = s.errInfo ∧ t.upc = s.upc + 1

/-- R66, R36: where the model stops by name: a datapath micro-op on a frame beyond the planes, and BLUR2D on a radius beyond the
coefficient ROM (log entries 8, 9); no other micro-op stops. -/
def Obligations.StopsOnlyOutsideTheSpaces : Prop :=
  (∀ i ∈ dstWriters ++ planeWriters, ∀ s : State, s.params.npixMax < frameN s → s.blurRadius.toNat ≤ s.params.rmax →
    exec i s = .fault .frameBeyondPlanes) ∧
  (∀ s : State, s.params.rmax < s.blurRadius.toNat → exec .blur2d s = .fault .radiusBeyondRom) ∧
  ∀ i ∉ dstWriters ++ planeWriters, ∀ s : State, ∃ t, exec i s = .next t

/-! ### The host port -/

/-- R212, R30, R32: a register read returns the register, in every state, and changes nothing of the core. -/
def Obligations.HostReadsRegisters : Prop :=
  ∀ (s : State) (i : Nat),
    let status : Word := match s.phase with
      | .idle => 0
      | .busy => 1
      | .done => 6
      | .error => 3
    transact (.rd i) s = { s with answer := some (
      [0, status, s.errCode, s.errInfo, s.upc.setWidth 32, s.filterType, s.enabled, s.lowThreshold, s.highThreshold,
        s.blurRadius, s.thresholdValue, s.srcWidth, s.srcHeight, s.srcLen, s.dstWidth, s.dstHeight, s.dstLen].getD i 0) }

/-- R213, R218, R29: a register write: nothing while BUSY; outside it the command decode at CTRL, the whole value into an option
or SRC register, nothing anywhere else. -/
def Obligations.HostWritesRegisters : Prop :=
  ∀ (s : State) (v : Word),
    (s.phase = .busy → ∀ i, transact (.wr i v) s = s) ∧
    (s.phase ≠ .busy →
      transact (.wr 0 v) s =
        (if v.getLsbD 0 = true then startCommand s else if v.getLsbD 1 = true then ackCommand s else s) ∧
      transact (.wr 5 v) s = { s with filterType := v } ∧ transact (.wr 6 v) s = { s with enabled := v } ∧
      transact (.wr 7 v) s = { s with lowThreshold := v } ∧ transact (.wr 8 v) s = { s with highThreshold := v } ∧
      transact (.wr 9 v) s = { s with blurRadius := v } ∧ transact (.wr 10 v) s = { s with thresholdValue := v } ∧
      transact (.wr 11 v) s = { s with srcWidth := v } ∧ transact (.wr 12 v) s = { s with srcHeight := v } ∧
      transact (.wr 13 v) s = { s with srcLen := v } ∧
      ∀ i, (1 ≤ i ∧ i ≤ 4) ∨ 14 ≤ i → transact (.wr i v) s = s)

/-- R214: while BUSY every host write is ignored, every read of SRC, DST or a plane returns 0, and register reads work. -/
def Obligations.BusyLocksTheHostOut : Prop :=
  ∀ s : State, s.phase = .busy →
    (∀ i v, transact (.wr i v) s = s) ∧ (∀ i b, transact (.wrbSrc i b) s = s) ∧
    (∀ i, transact (.rdbSrc i) s = { s with answer := some 0 }) ∧
    (∀ i, transact (.rdbDst i) s = { s with answer := some 0 }) ∧
    (∀ p i, transact (.rdp p i) s = { s with answer := some 0 }) ∧
    ∀ i, transact (.rd i) s = { s with answer := some (regRead s i) }

/-- R215: the SRC window outside BUSY: a write stores one byte, a read returns it, an index beyond the space does nothing. -/
def Obligations.SrcWindowStoresBytes : Prop :=
  ∀ s : State, s.phase ≠ .busy →
    (∀ i b, i < 4 * s.params.npixMax →
      ∃ t, transact (.wrbSrc i b) s = t ∧ t = { s with src := t.src } ∧ srcAt t i = b.toNat ∧
        (∀ j, j ≠ i → t.src.read j = s.src.read j) ∧
        transact (.rdbSrc i) t = { t with answer := some (b.setWidth 32) }) ∧
    (∀ i b, 4 * s.params.npixMax ≤ i → transact (.wrbSrc i b) s = s) ∧
    ∀ i, transact (.rdbSrc i) s =
      { s with answer := some (if i < 4 * s.params.npixMax then BitVec.ofNat 32 (srcAt s i) else 0) }

/-- R216: the host sees a byte of DST only while the output is valid and below DST_LEN; every other read returns 0. -/
def Obligations.DstWindowGatesOutput : Prop :=
  ∀ s : State, Invariant s → ∀ i,
    transact (.rdbDst i) s =
      { s with answer := some (if s.phase = .done ∧ i < s.dstLen.toNat then BitVec.ofNat 32 (dstAt s i) else 0) }

/-- R217: the plane inspection window outside BUSY. -/
def Obligations.PlaneWindowInspects : Prop :=
  ∀ (s : State) (p : Plane) (i : Nat), s.phase ≠ .busy →
    transact (.rdp p i) s =
      { s with answer := some (if i < s.params.npixMax then BitVec.ofNat 32 (planeAt s p i) else 0) }

/-- R111: START dispatch. -/
def Obligations.StartDispatches : Prop :=
  ∀ s : State,
    (s.phase = .busy → startCommand s = s) ∧
    (s.phase ≠ .busy →
      startCommand s =
        if s.filterType.toNat > 4 then
          { s with
            dstWidth := 0, dstHeight := 0, dstLen := 0
            errCode := 1, errInfo := s.filterType, phase := .error }
        else if s.enabled.toNat > 1 then
          { s with dstWidth := 0, dstHeight := 0, dstLen := 0, errCode := 2, errInfo := 6, phase := .error }
        else
          { s with
            dstWidth := 0, dstHeight := 0, dstLen := 0, errCode := 0, errInfo := 0
            upc := if s.enabled = 0 then 0 else BitVec.ofNat 5 (4 * s.filterType.toNat)
            phase := .busy })

/-- R219: ACK leaves DONE or ERROR for IDLE and clears the record and the descriptor; in IDLE or BUSY it does nothing. -/
def Obligations.AckReleases : Prop :=
  ∀ s : State,
    (s.phase = .done ∨ s.phase = .error → ackCommand s =
      { s with phase := .idle, errCode := 0, errInfo := 0, dstWidth := 0, dstHeight := 0, dstLen := 0 }) ∧
    (s.phase = .idle ∨ s.phase = .busy → ackCommand s = s)

/-- R40: every register after reset; no byte of SRC or DST and no plane element holds a written value. -/
def Obligations.ResetSetsEveryRegister : Prop :=
  ∀ (p : Params) (e : Nat),
    (List.range 32).map (regRead (State.resetOf p e)) =
      [0, 0, 0, 0, 0, 0, 0, 50, 150, 2, 128, 0, 0, 0, 0, 0, 0, 0, 0, 0, 0, 0, 0, 0, 0, 0, 0, 0, 0, 0, 0, 0] ∧
    (State.resetOf p e).phase = .idle ∧ dstValid (State.resetOf p e) = false ∧ (State.resetOf p e).upc = 0 ∧
    ∀ i, (State.resetOf p e).src.read i = none ∧ (State.resetOf p e).dst.read i = none ∧
      (State.resetOf p e).luma.read i = none ∧ (State.resetOf p e).tmp.read i = none ∧
      (State.resetOf p e).blur.read i = none ∧ (State.resetOf p e).mag.read i = none ∧
      (State.resetOf p e).dir.read i = none ∧ (State.resetOf p e).sup.read i = none ∧
      (State.resetOf p e).edge.read i = none

/-! ### The whole machine -/

/-- The canonical form is canonical: memories that read alike are equal data. -/
def Obligations.CanonicalMemoryUnique : Prop :=
  ∀ (w : Nat) (m m' : Memory w), m.wf → m'.wf → (∀ i, m.read i = m'.read i) → m = m'

/-- The invariant holds right after reset, for every well-formed instance and for the one of `State.reset`. -/
def Obligations.ResetMeetsInvariant : Prop :=
  (∀ (p : Params) (e : Nat), p.wf = true → Invariant (State.resetOf p e)) ∧ Invariant State.reset

/-- Every step from a state that meets the invariant leads to a state that meets it, whatever the outside world does. -/
def Obligations.StepKeepsInvariant : Prop :=
  ∀ s t : State, Invariant s → step s = .next t → Invariant t

/-- From a state that meets the invariant the machine never stops: no fault, no refusal. -/
def Obligations.MachineNeverStops : Prop :=
  ∀ s : State, Invariant s → ∃ t, step s = .next t

/-- R30: how STATUS reads, and that STATUS.STATE changes only by START (to BUSY or ERROR), by ACK (to IDLE), by reset (to IDLE),
by HALT (to DONE) and by a trap (to ERROR). -/
def Obligations.StateChangesOnlyByNamedEvents : Prop :=
  (∀ s : State, (dstValid s = true ↔ s.phase = .done) ∧
    statusWord s = match s.phase with
      | .idle => 0
      | .busy => 1
      | .done => 6
      | .error => 3) ∧
  ∀ s t : State, step s = .next t → t.phase ≠ s.phase →
    (∃ v rest, s.inputs = .host (.wr 0 v) :: rest ∧ v.getLsbD 0 = true ∧ s.phase ≠ .busy ∧
      (t.phase = .busy ∨ t.phase = .error)) ∨
    (∃ v rest, s.inputs = .host (.wr 0 v) :: rest ∧ v.getLsbD 0 = false ∧ v.getLsbD 1 = true ∧
      (s.phase = .done ∨ s.phase = .error) ∧ t.phase = .idle) ∨
    (∃ rest, s.inputs = .rst :: rest ∧ t.phase = .idle) ∨
    (s.phase = .busy ∧ decode (fetch s) = .op .halt ∧ t.phase = .done) ∨
    (s.phase = .busy ∧ t.phase = .error ∧ t.errCode ≠ 0)

/-- R240: a trap taken by a step is precise: the record and the state apart, the machine is as the step found it, `upc` at the
micro-op that trapped. -/
def Obligations.TrapsArePrecise : Prop :=
  ∀ s t : State, s.phase = .busy → step s = .next t → t.phase = .error →
    t = { s with inputs := t.inputs, errCode := t.errCode, errInfo := t.errInfo, phase := .error } ∧
    1 ≤ t.errCode.toNat ∧ t.errCode.toNat ≤ 9

/-- R118: every invocation ends: with the host silent, and whatever `env_fail` does, at most eleven steps lead from BUSY to DONE
or ERROR. -/
def Obligations.EveryInvocationEnds : Prop :=
  ∀ s : State, Invariant s → s.phase = .busy → (∀ i ∈ s.inputs, ∃ envFail, i = .tick envFail) →
    ∃ k ≤ 11, ∃ t : State, Sys2Proof.core.run k s = .next t ∧ (t.phase = .done ∨ t.phase = .error)

/-- R97, R131: one whole invocation of the pass-through, from the host's START to DONE: DST is SRC byte for byte. The outside
world is silent after START, `env_fail` low (log entry 5). -/
def Obligations.PassThroughInvocation : Prop :=
  ∀ s : State, s.params.wf = true → s.phase ≠ .busy → s.inputs = [.host (.wr 0 1)] → FrameChecked s →
    s.filterType.toNat ≤ 4 → (s.enabled = 0 ∨ s.enabled = 1 ∧ s.filterType = 0) →
    ∃ t : State, Sys2Proof.core.run 4 s = .next t ∧ t.phase = .done ∧ t.upc = 2 ∧ t.errCode = 0 ∧
      t.dstWidth = s.srcWidth ∧ t.dstHeight = s.srcHeight ∧ t.dstLen = s.srcLen ∧ t.src = s.src ∧
      ∀ i < 4 * frameN s, dstRead t i = BitVec.ofNat 32 (srcAt s i)

/-- R95, R97: one whole invocation of the edge filter, from the host's START to DONE: every stage is the Canny stage of the one
before it, and the output is the expansion of the last. The outside world is silent after START, `env_fail` low (log entry 5);
the directions are those of the spec's sector boundaries (log entry 13). -/
def Obligations.EdgeInvocationIsCanny : Prop :=
  ∀ s : State, s.params.wf = true → s.phase ≠ .busy → s.inputs = [.host (.wr 0 1)] → FrameChecked s →
    s.enabled = 1 → s.filterType = 4 → s.lowThreshold.toNat ≤ s.highThreshold.toNat →
    ∃ (t : State) (marked : Nat → Nat → Nat), Sys2Proof.core.run 12 s = .next t ∧
      t.phase = .done ∧ t.upc = 26 ∧ t.errCode = 0 ∧
      t.dstWidth = s.srcWidth ∧ t.dstHeight = s.srcHeight ∧ t.dstLen = s.srcLen ∧ t.src = s.src ∧
      CannyStages (frameW s) (frameH s) s.lowThreshold.toNat s.highThreshold.toNat (px s)
        (elementAt t .luma) (elementAt t .tmp) (elementAt t .blur) (elementAt t .mag) (elementAt t .dir)
        (elementAt t .sup) marked (elementAt t .edge) ∧
      ∀ x < frameW s, ∀ y < frameH s,
        (∀ c < 3, dstRead t (4 * (y * frameW s + x) + c) = BitVec.ofNat 32 (elementAt t .edge x y)) ∧
        dstRead t (4 * (y * frameW s + x) + 3) = 255

/-- R194, R135 and conflict C1: every colour byte of a completed edge map is 0 or 255 when LOW_THRESHOLD is at least 1, and in
the interior always; alpha is 255. The outside world is silent after START, `env_fail` low (log entry 5). -/
def Obligations.EdgeMapIsBinary : Prop :=
  ∀ s : State, s.params.wf = true → s.phase ≠ .busy → s.inputs = [.host (.wr 0 1)] → FrameChecked s →
    s.enabled = 1 → s.filterType = 4 → s.lowThreshold.toNat ≤ s.highThreshold.toNat →
    ∃ t : State, Sys2Proof.core.run 12 s = .next t ∧ t.phase = .done ∧
    ∀ x < frameW s, ∀ y < frameH s,
      dstRead t (4 * (y * frameW s + x) + 3) = 255 ∧
      ∀ c < 3, 1 ≤ s.lowThreshold.toNat ∨ isInterior (frameW s) (frameH s) x y →
        dstRead t (4 * (y * frameW s + x) + c) = 0 ∨ dstRead t (4 * (y * frameW s + x) + c) = 255

/-- R23: the result of an invocation is a function of the frame, its descriptor and the options: two machines that agree on
these, whatever their planes, old output, trap records and history, end with the same status, trap record and visible output.
The outside world is silent after START, `env_fail` low (log entry 5); an invocation that ends in fewer than twelve steps
reaches the twelfth by the idle steps of log entry 6. -/
def Obligations.OutputDependsOnInputAlone : Prop :=
  ∀ s s' : State, Invariant s → Invariant s' → s.phase ≠ .busy → s'.phase ≠ .busy →
    s.inputs = [.host (.wr 0 1)] → s'.inputs = [.host (.wr 0 1)] →
    s.params = s'.params → s.filterType = s'.filterType → s.enabled = s'.enabled →
    s.lowThreshold = s'.lowThreshold → s.highThreshold = s'.highThreshold → s.blurRadius = s'.blurRadius →
    s.thresholdValue = s'.thresholdValue → s.srcWidth = s'.srcWidth → s.srcHeight = s'.srcHeight →
    s.srcLen = s'.srcLen → (∀ i < s.srcLen.toNat, srcAt s i = srcAt s' i) →
    ∃ t t' : State, Sys2Proof.core.run 12 s = .next t ∧ Sys2Proof.core.run 12 s' = .next t' ∧
      t.phase ≠ .busy ∧ t'.phase = t.phase ∧ t'.errCode = t.errCode ∧ t'.errInfo = t.errInfo ∧
      t'.dstWidth = t.dstWidth ∧ t'.dstHeight = t.dstHeight ∧ t'.dstLen = t.dstLen ∧
      ∀ i, dstRead t' i = dstRead t i
end

