-- ==== Sys2Proof/Laws/Arith.lean ====
section
/-! SUPPORT. What the arithmetic primitives are: bounds, the integer square root, the clamps, and the accumulators as sums. -/

namespace Sys2Proof.Machine

/-! ### Luminance (41_pointwise.md R130) -/

theorem lum_le {r g b : Nat} (hr : r ≤ 255) (hg : g ≤ 255) (hb : b ≤ 255) : lum r g b ≤ 255 := by
  unfold lum; omega

/-- A gray pixel keeps its value. -/
@[simp] theorem lum_gray (v : Nat) : lum v v v = v := by unfold lum; omega

/-! ### Rounding and clamping -/

theorem roundAcc_eq (acc : Nat) : roundAcc acc = min 255 ((acc + 32768) / 65536) := by
  unfold roundAcc clamp8 rnd16
  split
  · omega
  · split
    · omega
    · simp only [Int.toNat_natCast]; omega

theorem roundAcc_le (acc : Nat) : roundAcc acc ≤ 255 := by rw [roundAcc_eq]; omega

theorem clampc_eq_nearestIn (c : Int) (n : Nat) : clampc c n = nearestIn n c := by
  unfold clampc nearestIn
  split
  · rw [if_pos (by omega)]
  · split
    · by_cases h : c ≤ 0
      · rw [if_pos h]; omega
      · rw [if_neg h, if_neg (by omega)]
    · by_cases h : c ≤ 0
      · rw [if_pos h]; omega
      · rw [if_neg h, if_pos (by omega)]

theorem nearestIn_lt {n : Nat} (h : 1 ≤ n) (c : Int) : nearestIn n c < n := by
  unfold nearestIn
  split
  · omega
  · split <;> omega

/-- A coordinate inside the frame is its own nearest. -/
theorem nearestIn_self {n x : Nat} (h : x < n) : nearestIn n (x : Int) = x := by
  unfold nearestIn
  split
  · omega
  · rw [if_pos (by omega)]; rfl

@[simp] theorem byteOf_toNat {v : Nat} (h : v ≤ 255) : (byteOf v).toNat = v := by
  simp only [byteOf, BitVec.toNat_ofNat]; omega

/-! ### Sums -/

theorem sum_map_range {A : Type} [AddCommMonoid A] (f : Nat → A) (n : Nat) :
    ((List.range n).map f).sum = ∑ i ∈ Finset.range n, f i := by
  induction n with
  | zero => rfl
  | succ n ih => rw [List.range_succ, List.map_append, List.sum_append, ih, Finset.sum_range_succ]; simp

theorem sum_map_offsets {A : Type} [AddCommMonoid A] (f : Int → A) (r : Nat) :
    ((offsets r).map f).sum = ∑ i ∈ Finset.range (2 * r + 1), f ((i : Int) - r) := by
  rw [offsets, List.map_map, sum_map_range]; rfl

theorem tapSum_eq (f : Int → Nat) : tapSum f = ∑ k ∈ Finset.range 7, k1.getD k 0 * f ((k : Int) - 3) :=
  sum_map_range _ 7

theorem footprintSum_eq (r : Nat) (f : Int → Int → Nat) :
    footprintSum r f = overKernel r fun dx dy => coef2d r dx.natAbs dy.natAbs * f dx dy := by
  rw [footprintSum, sum_map_offsets]
  exact Finset.sum_congr rfl fun j _ => sum_map_offsets _ r

theorem kernelSum_eq (r : Nat) (f : Nat → Nat → Nat) :
    kernelSum r f = overKernel r fun dx dy => f dx.natAbs dy.natAbs := by
  rw [kernelSum, sum_map_offsets]
  exact Finset.sum_congr rfl fun j _ => sum_map_offsets _ r

theorem roundAcc_tapSum (f : Int → Nat) : roundAcc (tapSum f) = sevenTap f := by
  rw [roundAcc_eq, tapSum_eq, sevenTap]

theorem roundAcc_footprintSum (r : Nat) (f : Int → Int → Nat) : roundAcc (footprintSum r f) = squareTap r f := by
  rw [roundAcc_eq, footprintSum_eq, squareTap]

theorem sevenTap_le (f : Int → Nat) : sevenTap f ≤ 255 := Nat.min_le_left _ _

theorem squareTap_le (r : Nat) (f : Int → Int → Nat) : squareTap r f ≤ 255 := Nat.min_le_left _ _

/-! ### The integer square root (00_scope.md R9) -/

theorem isqrtDigits_spec (k : Nat) : ∀ n < 4 ^ k,
    isqrtDigits k n * isqrtDigits k n ≤ n ∧ n < (isqrtDigits k n + 1) * (isqrtDigits k n + 1) := by
  induction k with
  | zero => intro n h; simp at h; subst h; simp [isqrtDigits]
  | succ k ih =>
    intro n h
    have hn : n / 4 < 4 ^ k := by rw [pow_succ] at h; omega
    obtain ⟨h1, h2⟩ := ih (n / 4) hn
    have d1 : 4 * (n / 4) ≤ n := by omega
    have d2 : n ≤ 4 * (n / 4) + 3 := by omega
    simp only [isqrtDigits]
    generalize isqrtDigits k (n / 4) = s at h1 h2
    generalize n / 4 = q at h1 h2 d1 d2
    split
    · refine ⟨‹_›, ?_⟩
      nlinarith
    · constructor
      · nlinarith
      · omega

/-- `isqrt n` is the largest `s` with `s * s ≤ n`. -/
theorem isqrt_spec (n : Nat) : isqrt n * isqrt n ≤ n ∧ n < (isqrt n + 1) * (isqrt n + 1) := by
  refine isqrtDigits_spec _ n ?_
  have h : n < 2 ^ (n.log2 + 1) := Nat.lt_log2_self
  refine Nat.lt_of_lt_of_le h ?_
  rw [show (4 : Nat) = 2 ^ 2 from rfl, ← pow_mul]
  exact Nat.pow_le_pow_right (by norm_num) (by omega)

/-- `rsqrt n` is within one half of the square root, on both sides (43_gradient_nms.md R173). -/
theorem rsqrt_spec (n : Nat) :
    (rsqrt n = 0 ∧ n = 0) ∨ (1 ≤ rsqrt n ∧ rsqrt n * rsqrt n < n + rsqrt n ∧ n ≤ rsqrt n * rsqrt n + rsqrt n) := by
  obtain ⟨h1, h2⟩ := isqrt_spec n
  unfold rsqrt
  simp only
  generalize isqrt n = s at h1 h2
  split
  · right
    refine ⟨by omega, ?_, ?_⟩ <;> nlinarith
  · rcases Nat.eq_zero_or_pos s with rfl | hs
    · left; omega
    · right
      refine ⟨hs, ?_, ?_⟩ <;> nlinarith

theorem magnitude_le (gx gy : Int) : magnitude gx gy ≤ 255 := Nat.min_le_left _ _

theorem sector_lt (gx gy : Int) : sector gx gy < 4 := by
  unfold sector
  simp only
  split_ifs <;> omega

end Sys2Proof.Machine
end

