-- ==== Sys2Proof/Laws/Coefficients.lean ====
section
/-! SUPPORT. The coefficient generator's integer bounds against the exponential they bound (10_state.md R41). -/

namespace Sys2Proof.Machine

/-- The integer series is the partial sum of the exponential series, scaled. -/
theorem expSeries_eq (a b : Nat) (hb : 0 < b) (n : Nat) : (expSeries a b n : ℝ) =
    (b : ℝ) ^ n * n.factorial * ∑ k ∈ Finset.range (n + 1), (-(a : ℝ) / b) ^ k / k.factorial := by
  have hb' : (b : ℝ) ≠ 0 := by positivity
  induction n with
  | zero => simp [expSeries]
  | succ n ih =>
    have hn : (((n + 1).factorial : ℕ) : ℝ) ≠ 0 := by positivity
    have e : (b : ℝ) ^ (n + 1) * ((n + 1).factorial : ℕ) * ((-(a : ℝ) / b) ^ (n + 1) / ((n + 1).factorial : ℕ)) =
        (-(a : ℝ)) ^ (n + 1) := by rw [div_pow]; field_simp
    rw [expSeries, Finset.sum_range_succ, mul_add _ (Finset.sum _ _), e]
    push_cast [ih, Nat.factorial_succ]
    ring

/-- The error bound bounds the error. -/
theorem expSeries_error (a b : Nat) (hb : 0 < b) (hab : a ≤ b) (n : Nat) :
    |(b : ℝ) ^ n * n.factorial * Real.exp (-(a : ℝ) / b) - expSeries a b n| ≤ expError a b n := by
  have hx : |(-(a : ℝ) / b)| ≤ 1 := by
    rw [abs_div, abs_neg, Nat.abs_cast, Nat.abs_cast]
    exact div_le_one_of_le₀ (by exact_mod_cast hab) (by positivity)
  have := Real.exp_bound hx (n := n + 1) (by omega)
  have hp : (0 : ℝ) < (b : ℝ) ^ n * n.factorial := by positivity
  rw [expSeries_eq a b hb, ← mul_sub, abs_mul, abs_of_pos hp]
  refine (mul_le_mul_of_nonneg_left this hp.le).trans ?_
  rw [abs_div, abs_neg, Nat.abs_cast, Nat.abs_cast]
  have e : (b : ℝ) ^ n * n.factorial * ((a / b : ℝ) ^ (n + 1) * (((n + 1).succ : ℕ) /
      (((n + 1).factorial : ℕ) * ((n + 1 : ℕ) : ℝ)))) = (a ^ (n + 1) * (n + 2) : ℕ) / ((b * (n + 1) ^ 2 : ℕ) : ℝ) := by
    have : (b : ℝ) ≠ 0 := by positivity
    rw [Nat.factorial_succ]
    push_cast
    rw [div_pow]
    field_simp
    ring
  have h0 : 0 < b * (n + 1) ^ 2 := by positivity
  rw [e, expError, div_le_iff₀ (by exact_mod_cast h0)]
  have := (Nat.lt_mul_div_succ (a ^ (n + 1) * (n + 2)) h0).le
  refine le_trans (by exact_mod_cast this) (le_of_eq (mul_comm _ _))

/-- The scale of the integer weights of radius `r`. -/
noncomputable def weightScale (r : Nat) : ℝ := (((32 * r * r : Nat) : ℝ) ^ expTerms * expTerms.factorial) ^ 16

theorem weightScale_pos {r : Nat} (hr : 1 ≤ r) : 0 < weightScale r := by
  have : 0 < 32 * r * r := by positivity
  unfold weightScale
  positivity

/-- The integer weights bound the scaled real weight of R41, up to the corner of the kernel. -/
theorem weight_bounds {r d : Nat} (hr : 1 ≤ r) (hd : d ≤ 2 * r * r) :
    (weightLo r d : ℝ) ≤ weightScale r * Real.exp (-(d : ℝ) * 9 / (2 * (r : ℝ) ^ 2)) ∧
    weightScale r * Real.exp (-(d : ℝ) * 9 / (2 * (r : ℝ) ^ 2)) ≤ weightHi r d := by
  have hb : 0 < 32 * r * r := by positivity
  have hab : 9 * d ≤ 32 * r * r := by nlinarith
  have h := abs_le.1 (expSeries_error (9 * d) (32 * r * r) hb hab expTerms)
  have he : weightScale r * Real.exp (-(d : ℝ) * 9 / (2 * (r : ℝ) ^ 2)) =
      (((32 * r * r : Nat) : ℝ) ^ expTerms * expTerms.factorial *
        Real.exp (-((9 * d : Nat) : ℝ) / ((32 * r * r : Nat) : ℝ))) ^ 16 := by
    rw [mul_pow, ← Real.exp_nat_mul, weightScale]
    congr 2
    have : (r : ℝ) ≠ 0 := by positivity
    push_cast
    field_simp
    ring
  have hp : (0 : ℝ) ≤ ((32 * r * r : Nat) : ℝ) ^ expTerms * expTerms.factorial *
      Real.exp (-((9 * d : Nat) : ℝ) / ((32 * r * r : Nat) : ℝ)) := by positivity
  rw [he, weightLo, weightHi]
  generalize ((32 * r * r : Nat) : ℝ) ^ expTerms * expTerms.factorial *
    Real.exp (-((9 * d : Nat) : ℝ) / ((32 * r * r : Nat) : ℝ)) = v at *
  generalize expSeries (9 * d) (32 * r * r) expTerms = S at *
  generalize expError (9 * d) (32 * r * r) expTerms = E at *
  have low : (((S - E).toNat : Nat) : ℝ) ≤ v := by
    rcases le_total 0 (S - E) with h0 | h0
    · have e : (((S - E).toNat : Nat) : ℝ) = (S : ℝ) - E := by
        rw [← Int.cast_natCast, Int.toNat_of_nonneg h0]; push_cast; rfl
      rw [e]; linarith
    · rw [Int.toNat_of_nonpos h0]; simpa using hp
  have high : v ≤ (((S + E).toNat : Nat) : ℝ) := by
    have e : ((S : ℝ) + E) ≤ (((S + E).toNat : Nat) : ℝ) := by
      have := Int.self_le_toNat (S + E)
      exact_mod_cast this
    linarith
  push_cast
  exact ⟨pow_le_pow_left₀ (by positivity) low 16, pow_le_pow_left₀ hp high 16⟩

end Sys2Proof.Machine
end

