-- ==== Sys2Proof/Laws/Memory.lean ====
section
/-! SUPPORT. What the memory operations do: the canonical form is kept and is unique, a read after a write or a fill, and what has
been written stays written. -/

namespace Sys2Proof.Machine

variable {w : Nat}

@[simp] theorem Memory.read_nil (a : Nat) : Memory.read ([] : Memory w) a = none := rfl

theorem Memory.read_cons (b : Nat) (v : BitVec w) (m : Memory w) (a : Nat) :
    Memory.read ((b, v) :: m) a = if a = b then some v else Memory.read m a := rfl

/-- Nothing is read at an address no entry lists. -/
theorem Memory.read_eq_none {m : Memory w} {a : Nat} (h : ∀ c ∈ m, c.1 ≠ a) : m.read a = none := by
  induction m with
  | nil => rfl
  | cons c m ih =>
    obtain ⟨b, v⟩ := c
    have hb : a ≠ b := fun e => h (b, v) (by simp) e.symm
    rw [Memory.read_cons, if_neg hb]
    exact ih fun c hc => h c (by simp [hc])

/-- An entry is what its address reads as, in a canonical memory. -/
theorem Memory.read_of_mem {m : Memory w} (h : m.wf) {c : Nat × BitVec w} (hc : c ∈ m) : m.read c.1 = some c.2 := by
  induction m with
  | nil => cases hc
  | cons d m ih =>
    obtain ⟨b, v⟩ := d
    obtain ⟨hd, hm⟩ := List.pairwise_cons.1 h
    rw [Memory.read_cons]
    rcases List.mem_cons.1 hc with rfl | hc
    · simp
    · have := hd c hc
      simp only at this
      rw [if_neg (by omega)]
      exact ih hm hc

/-- What is read is an entry. -/
theorem Memory.mem_of_read {m : Memory w} {a : Nat} {v : BitVec w} (h : m.read a = some v) : (a, v) ∈ m := by
  induction m with
  | nil => simp at h
  | cons d m ih =>
    obtain ⟨b, u⟩ := d
    rw [Memory.read_cons] at h
    split at h
    · simp_all
    · exact List.mem_cons_of_mem _ (ih h)

/-! ### Write -/

theorem Memory.read_write (m : Memory w) (a : Nat) (v : BitVec w) (i : Nat) :
    (m.write a v).read i = if i = a then some v else m.read i := by
  induction m with
  | nil => simp [Memory.write, Memory.read_cons]
  | cons c m ih =>
    obtain ⟨b, u⟩ := c
    unfold Memory.write
    split
    · rw [Memory.read_cons]
    · split
      · subst_vars
        simp only [Memory.read_cons]
        split <;> simp_all
      · simp only [Memory.read_cons, ih]
        split
        · split <;> simp_all
        · rfl

theorem Memory.mem_write {m : Memory w} {a : Nat} {v : BitVec w} {c : Nat × BitVec w} (hc : c ∈ m.write a v) :
    c = (a, v) ∨ c ∈ m := by
  induction m with
  | nil => simpa [Memory.write] using hc
  | cons d m ih =>
    obtain ⟨b, u⟩ := d
    unfold Memory.write at hc
    split at hc
    · simpa using hc
    · split at hc
      · rcases List.mem_cons.1 hc with rfl | hc
        · exact .inl rfl
        · exact .inr (List.mem_cons_of_mem _ hc)
      · rcases List.mem_cons.1 hc with rfl | hc
        · exact .inr (by simp)
        · exact (ih hc).imp id (List.mem_cons_of_mem _)

theorem Memory.write_wf {m : Memory w} (h : m.wf) (a : Nat) (v : BitVec w) : (m.write a v).wf := by
  induction m with
  | nil => simp [Memory.write, Memory.wf]
  | cons c m ih =>
    obtain ⟨b, u⟩ := c
    obtain ⟨hc, hm⟩ := List.pairwise_cons.1 h
    unfold Memory.write
    split
    · refine List.pairwise_cons.2 ⟨fun d hd => ?_, h⟩
      rcases List.mem_cons.1 hd with rfl | hd
      · assumption
      · exact Nat.lt_trans ‹_› (hc d hd)
    · split
      · subst_vars
        exact List.pairwise_cons.2 ⟨hc, hm⟩
      · refine List.pairwise_cons.2 ⟨fun d hd => ?_, ih hm⟩
        rcases Memory.mem_write hd with rfl | hd
        · simp only; omega
        · exact hc d hd

theorem Memory.write_within {m : Memory w} {size : Nat} (h : m.within size) {a : Nat} (ha : a < size) (v : BitVec w) :
    (m.write a v).within size := by
  intro c hc
  rcases Memory.mem_write hc with rfl | hc
  · exact ha
  · exact h c hc

theorem Memory.write_canonical {m : Memory w} {size : Nat} (h : m.canonical size) {a : Nat} (ha : a < size)
    (v : BitVec w) : (m.write a v).canonical size :=
  ⟨Memory.write_wf h.1 a v, Memory.write_within h.2 ha v⟩

theorem Memory.written_write {m : Memory w} {n : Nat} (h : m.written n) (a : Nat) (v : BitVec w) :
    (m.write a v).written n := by
  intro i hi
  rw [Memory.read_write]
  split
  · rfl
  · exact h i hi

/-! ### Fill -/

theorem Memory.read_map_range (f : Nat → BitVec w) (l : List Nat) (i : Nat) :
    Memory.read (l.map fun j => (j, f j)) i = if i ∈ l then some (f i) else none := by
  induction l with
  | nil => simp
  | cons j l ih =>
    rw [List.map_cons, Memory.read_cons, ih]
    by_cases h : i = j <;> simp [h]

theorem Memory.read_append (m m' : Memory w) (i : Nat) :
    Memory.read (m ++ m') i = (Memory.read m i).or (Memory.read m' i) := by
  induction m with
  | nil => simp
  | cons c m ih =>
    obtain ⟨b, v⟩ := c
    rw [List.cons_append, Memory.read_cons, Memory.read_cons, ih]
    split <;> simp

theorem Memory.read_filter_ge (m : Memory w) (n i : Nat) :
    Memory.read (m.filter fun c => decide (n ≤ c.1)) i = if n ≤ i then m.read i else none := by
  induction m with
  | nil => simp
  | cons c m ih =>
    obtain ⟨b, v⟩ := c
    by_cases hb : n ≤ b
    · rw [List.filter_cons_of_pos (by simpa using hb), Memory.read_cons, Memory.read_cons, ih]
      by_cases hi : i = b
      · subst hi; simp [hb]
      · simp [hi]
    · rw [List.filter_cons_of_neg (by simpa using hb), ih, Memory.read_cons]
      by_cases hi : i = b
      · subst hi; simp [hb]
      · simp [hi]

/-- A fill sets the units below `n` and leaves every other unit. -/
theorem Memory.read_fill (m : Memory w) (n : Nat) (f : Nat → BitVec w) (i : Nat) :
    (m.fill n f).read i = if i < n then some (f i) else m.read i := by
  rw [Memory.fill, Memory.read_append, Memory.read_map_range, Memory.read_filter_ge]
  by_cases h : i < n
  · simp [h]
  · simp [h, Nat.le_of_not_lt h]

theorem Memory.fill_wf {m : Memory w} (h : m.wf) (n : Nat) (f : Nat → BitVec w) : (m.fill n f).wf := by
  refine List.pairwise_append.2 ⟨?_, List.Pairwise.filter _ h, ?_⟩
  · rw [List.pairwise_map]
    exact List.pairwise_lt_range
  · intro c hc d hd
    obtain ⟨i, hi, rfl⟩ := List.mem_map.1 hc
    have h1 := List.mem_range.1 hi
    have h2 := (List.mem_filter.1 hd).2
    simp only [decide_eq_true_eq] at h2
    simp only
    omega

theorem Memory.fill_within {m : Memory w} {size n : Nat} (h : m.within size) (hn : n ≤ size) (f : Nat → BitVec w) :
    (m.fill n f).within size := by
  intro c hc
  rcases List.mem_append.1 hc with hc | hc
  · obtain ⟨i, hi, rfl⟩ := List.mem_map.1 hc
    exact Nat.lt_of_lt_of_le (List.mem_range.1 hi) hn
  · exact h c (List.mem_filter.1 hc).1

theorem Memory.fill_canonical {m : Memory w} {size n : Nat} (h : m.canonical size) (hn : n ≤ size)
    (f : Nat → BitVec w) : (m.fill n f).canonical size :=
  ⟨Memory.fill_wf h.1 n f, Memory.fill_within h.2 hn f⟩

theorem Memory.written_fill (m : Memory w) (n : Nat) (f : Nat → BitVec w) : (m.fill n f).written n := by
  intro i hi
  simp [Memory.read_fill, hi]

/-! ### Reading through the free values -/

/-- What is written is what is read, whatever the free value. -/
theorem Memory.readOr_of_read {m : Memory w} {i : Nat} {v : BitVec w} (h : m.read i = some v) (free : Nat → Byte) :
    m.readOr free i = v := by simp [Memory.readOr, h]

/-- A unit of a written memory does not depend on the free values. -/
theorem Memory.readOr_written {m : Memory w} {n i : Nat} (h : m.written n) (hi : i < n) (free free' : Nat → Byte) :
    m.readOr free i = m.readOr free' i := by
  obtain ⟨v, hv⟩ := Option.isSome_iff_exists.1 (h i hi)
  rw [Memory.readOr_of_read hv, Memory.readOr_of_read hv]

theorem Memory.readOr_write (m : Memory w) (free : Nat → Byte) (a : Nat) (v : BitVec w) (i : Nat) :
    (m.write a v).readOr free i = if i = a then v else m.readOr free i := by
  rw [Memory.readOr, Memory.read_write]
  split <;> rfl

theorem Memory.readOr_fill (m : Memory w) (free : Nat → Byte) (n : Nat) (f : Nat → BitVec w) (i : Nat) :
    (m.fill n f).readOr free i = if i < n then f i else m.readOr free i := by
  rw [Memory.readOr, Memory.read_fill]
  split <;> rfl

end Sys2Proof.Machine
end

