-- ==== Sys2Proof/Laws/State.lean ====
section
/-! SUPPORT. One lemma per field per update, so that no proof unfolds an update of the state; and what the updates leave of the
frame and of the spaces as the rules read them. -/

namespace Sys2Proof.Machine

/-! ### A completed micro-op (40_sequencer_control.md R110) -/

@[simp] theorem advance_params (s : State) : (advance s).params = s.params := rfl
@[simp] theorem advance_phase (s : State) : (advance s).phase = s.phase := rfl
@[simp] theorem advance_errCode (s : State) : (advance s).errCode = s.errCode := rfl
@[simp] theorem advance_errInfo (s : State) : (advance s).errInfo = s.errInfo := rfl
@[simp] theorem advance_upc (s : State) : (advance s).upc = s.upc + 1 := rfl
@[simp] theorem advance_filterType (s : State) : (advance s).filterType = s.filterType := rfl
@[simp] theorem advance_enabled (s : State) : (advance s).enabled = s.enabled := rfl
@[simp] theorem advance_lowThreshold (s : State) : (advance s).lowThreshold = s.lowThreshold := rfl
@[simp] theorem advance_highThreshold (s : State) : (advance s).highThreshold = s.highThreshold := rfl
@[simp] theorem advance_blurRadius (s : State) : (advance s).blurRadius = s.blurRadius := rfl
@[simp] theorem advance_thresholdValue (s : State) : (advance s).thresholdValue = s.thresholdValue := rfl
@[simp] theorem advance_srcWidth (s : State) : (advance s).srcWidth = s.srcWidth := rfl
@[simp] theorem advance_srcHeight (s : State) : (advance s).srcHeight = s.srcHeight := rfl
@[simp] theorem advance_srcLen (s : State) : (advance s).srcLen = s.srcLen := rfl
@[simp] theorem advance_dstWidth (s : State) : (advance s).dstWidth = s.dstWidth := rfl
@[simp] theorem advance_dstHeight (s : State) : (advance s).dstHeight = s.dstHeight := rfl
@[simp] theorem advance_dstLen (s : State) : (advance s).dstLen = s.dstLen := rfl
@[simp] theorem advance_src (s : State) : (advance s).src = s.src := rfl
@[simp] theorem advance_dst (s : State) : (advance s).dst = s.dst := rfl
@[simp] theorem advance_luma (s : State) : (advance s).luma = s.luma := rfl
@[simp] theorem advance_tmp (s : State) : (advance s).tmp = s.tmp := rfl
@[simp] theorem advance_blur (s : State) : (advance s).blur = s.blur := rfl
@[simp] theorem advance_mag (s : State) : (advance s).mag = s.mag := rfl
@[simp] theorem advance_dir (s : State) : (advance s).dir = s.dir := rfl
@[simp] theorem advance_sup (s : State) : (advance s).sup = s.sup := rfl
@[simp] theorem advance_edge (s : State) : (advance s).edge = s.edge := rfl
@[simp] theorem advance_epoch (s : State) : (advance s).epoch = s.epoch := rfl
@[simp] theorem advance_inputs (s : State) : (advance s).inputs = s.inputs := rfl
@[simp] theorem advance_answer (s : State) : (advance s).answer = s.answer := rfl

/-! ### HALT (40_sequencer_control.md R112) -/

@[simp] theorem enterDone_params (s : State) : (enterDone s).params = s.params := rfl
@[simp] theorem enterDone_phase (s : State) : (enterDone s).phase = .done := rfl
@[simp] theorem enterDone_errCode (s : State) : (enterDone s).errCode = s.errCode := rfl
@[simp] theorem enterDone_errInfo (s : State) : (enterDone s).errInfo = s.errInfo := rfl
@[simp] theorem enterDone_upc (s : State) : (enterDone s).upc = s.upc := rfl
@[simp] theorem enterDone_filterType (s : State) : (enterDone s).filterType = s.filterType := rfl
@[simp] theorem enterDone_enabled (s : State) : (enterDone s).enabled = s.enabled := rfl
@[simp] theorem enterDone_lowThreshold (s : State) : (enterDone s).lowThreshold = s.lowThreshold := rfl
@[simp] theorem enterDone_highThreshold (s : State) : (enterDone s).highThreshold = s.highThreshold := rfl
@[simp] theorem enterDone_blurRadius (s : State) : (enterDone s).blurRadius = s.blurRadius := rfl
@[simp] theorem enterDone_thresholdValue (s : State) : (enterDone s).thresholdValue = s.thresholdValue := rfl
@[simp] theorem enterDone_srcWidth (s : State) : (enterDone s).srcWidth = s.srcWidth := rfl
@[simp] theorem enterDone_srcHeight (s : State) : (enterDone s).srcHeight = s.srcHeight := rfl
@[simp] theorem enterDone_srcLen (s : State) : (enterDone s).srcLen = s.srcLen := rfl
@[simp] theorem enterDone_dstWidth (s : State) : (enterDone s).dstWidth = s.dstWidth := rfl
@[simp] theorem enterDone_dstHeight (s : State) : (enterDone s).dstHeight = s.dstHeight := rfl
@[simp] theorem enterDone_dstLen (s : State) : (enterDone s).dstLen = s.dstLen := rfl
@[simp] theorem enterDone_src (s : State) : (enterDone s).src = s.src := rfl
@[simp] theorem enterDone_dst (s : State) : (enterDone s).dst = s.dst := rfl
@[simp] theorem enterDone_luma (s : State) : (enterDone s).luma = s.luma := rfl
@[simp] theorem enterDone_tmp (s : State) : (enterDone s).tmp = s.tmp := rfl
@[simp] theorem enterDone_blur (s : State) : (enterDone s).blur = s.blur := rfl
@[simp] theorem enterDone_mag (s : State) : (enterDone s).mag = s.mag := rfl
@[simp] theorem enterDone_dir (s : State) : (enterDone s).dir = s.dir := rfl
@[simp] theorem enterDone_sup (s : State) : (enterDone s).sup = s.sup := rfl
@[simp] theorem enterDone_edge (s : State) : (enterDone s).edge = s.edge := rfl
@[simp] theorem enterDone_epoch (s : State) : (enterDone s).epoch = s.epoch := rfl
@[simp] theorem enterDone_inputs (s : State) : (enterDone s).inputs = s.inputs := rfl
@[simp] theorem enterDone_answer (s : State) : (enterDone s).answer = s.answer := rfl

/-! ### Trap entry (60_exceptions.md R240) -/

@[simp] theorem trap_params (c : Cause) (info : Nat) (s : State) : (trap c info s).params = s.params := rfl
@[simp] theorem trap_phase (c : Cause) (info : Nat) (s : State) : (trap c info s).phase = .error := rfl
@[simp] theorem trap_errCode (c : Cause) (info : Nat) (s : State) : (trap c info s).errCode = causeCode c := rfl
@[simp] theorem trap_errInfo (c : Cause) (info : Nat) (s : State) : (trap c info s).errInfo = toReg info := rfl
@[simp] theorem trap_upc (c : Cause) (info : Nat) (s : State) : (trap c info s).upc = s.upc := rfl
@[simp] theorem trap_filterType (c : Cause) (info : Nat) (s : State) : (trap c info s).filterType = s.filterType := rfl
@[simp] theorem trap_enabled (c : Cause) (info : Nat) (s : State) : (trap c info s).enabled = s.enabled := rfl
@[simp] theorem trap_lowThreshold (c : Cause) (info : Nat) (s : State) : (trap c info s).lowThreshold = s.lowThreshold := rfl
@[simp] theorem trap_highThreshold (c : Cause) (info : Nat) (s : State) : (trap c info s).highThreshold = s.highThreshold := rfl
@[simp] theorem trap_blurRadius (c : Cause) (info : Nat) (s : State) : (trap c info s).blurRadius = s.blurRadius := rfl
@[simp] theorem trap_thresholdValue (c : Cause) (info : Nat) (s : State) : (trap c info s).thresholdValue = s.thresholdValue := rfl
@[simp] theorem trap_srcWidth (c : Cause) (info : Nat) (s : State) : (trap c info s).srcWidth = s.srcWidth := rfl
@[simp] theorem trap_srcHeight (c : Cause) (info : Nat) (s : State) : (trap c info s).srcHeight = s.srcHeight := rfl
@[simp] theorem trap_srcLen (c : Cause) (info : Nat) (s : State) : (trap c info s).srcLen = s.srcLen := rfl
@[simp] theorem trap_dstWidth (c : Cause) (info : Nat) (s : State) : (trap c info s).dstWidth = s.dstWidth := rfl
@[simp] theorem trap_dstHeight (c : Cause) (info : Nat) (s : State) : (trap c info s).dstHeight = s.dstHeight := rfl
@[simp] theorem trap_dstLen (c : Cause) (info : Nat) (s : State) : (trap c info s).dstLen = s.dstLen := rfl
@[simp] theorem trap_src (c : Cause) (info : Nat) (s : State) : (trap c info s).src = s.src := rfl
@[simp] theorem trap_dst (c : Cause) (info : Nat) (s : State) : (trap c info s).dst = s.dst := rfl
@[simp] theorem trap_luma (c : Cause) (info : Nat) (s : State) : (trap c info s).luma = s.luma := rfl
@[simp] theorem trap_tmp (c : Cause) (info : Nat) (s : State) : (trap c info s).tmp = s.tmp := rfl
@[simp] theorem trap_blur (c : Cause) (info : Nat) (s : State) : (trap c info s).blur = s.blur := rfl
@[simp] theorem trap_mag (c : Cause) (info : Nat) (s : State) : (trap c info s).mag = s.mag := rfl
@[simp] theorem trap_dir (c : Cause) (info : Nat) (s : State) : (trap c info s).dir = s.dir := rfl
@[simp] theorem trap_sup (c : Cause) (info : Nat) (s : State) : (trap c info s).sup = s.sup := rfl
@[simp] theorem trap_edge (c : Cause) (info : Nat) (s : State) : (trap c info s).edge = s.edge := rfl
@[simp] theorem trap_epoch (c : Cause) (info : Nat) (s : State) : (trap c info s).epoch = s.epoch := rfl
@[simp] theorem trap_inputs (c : Cause) (info : Nat) (s : State) : (trap c info s).inputs = s.inputs := rfl
@[simp] theorem trap_answer (c : Cause) (info : Nat) (s : State) : (trap c info s).answer = s.answer := rfl

/-! ### What START and ACK clear (40_sequencer_control.md R111) -/

@[simp] theorem clearRecord_params (s : State) : (clearRecord s).params = s.params := rfl
@[simp] theorem clearRecord_phase (s : State) : (clearRecord s).phase = s.phase := rfl
@[simp] theorem clearRecord_errCode (s : State) : (clearRecord s).errCode = 0 := rfl
@[simp] theorem clearRecord_errInfo (s : State) : (clearRecord s).errInfo = 0 := rfl
@[simp] theorem clearRecord_upc (s : State) : (clearRecord s).upc = s.upc := rfl
@[simp] theorem clearRecord_filterType (s : State) : (clearRecord s).filterType = s.filterType := rfl
@[simp] theorem clearRecord_enabled (s : State) : (clearRecord s).enabled = s.enabled := rfl
@[simp] theorem clearRecord_lowThreshold (s : State) : (clearRecord s).lowThreshold = s.lowThreshold := rfl
@[simp] theorem clearRecord_highThreshold (s : State) : (clearRecord s).highThreshold = s.highThreshold := rfl
@[simp] theorem clearRecord_blurRadius (s : State) : (clearRecord s).blurRadius = s.blurRadius := rfl
@[simp] theorem clearRecord_thresholdValue (s : State) : (clearRecord s).thresholdValue = s.thresholdValue := rfl
@[simp] theorem clearRecord_srcWidth (s : State) : (clearRecord s).srcWidth = s.srcWidth := rfl
@[simp] theorem clearRecord_srcHeight (s : State) : (clearRecord s).srcHeight = s.srcHeight := rfl
@[simp] theorem clearRecord_srcLen (s : State) : (clearRecord s).srcLen = s.srcLen := rfl
@[simp] theorem clearRecord_dstWidth (s : State) : (clearRecord s).dstWidth = 0 := rfl
@[simp] theorem clearRecord_dstHeight (s : State) : (clearRecord s).dstHeight = 0 := rfl
@[simp] theorem clearRecord_dstLen (s : State) : (clearRecord s).dstLen = 0 := rfl
@[simp] theorem clearRecord_src (s : State) : (clearRecord s).src = s.src := rfl
@[simp] theorem clearRecord_dst (s : State) : (clearRecord s).dst = s.dst := rfl
@[simp] theorem clearRecord_luma (s : State) : (clearRecord s).luma = s.luma := rfl
@[simp] theorem clearRecord_tmp (s : State) : (clearRecord s).tmp = s.tmp := rfl
@[simp] theorem clearRecord_blur (s : State) : (clearRecord s).blur = s.blur := rfl
@[simp] theorem clearRecord_mag (s : State) : (clearRecord s).mag = s.mag := rfl
@[simp] theorem clearRecord_dir (s : State) : (clearRecord s).dir = s.dir := rfl
@[simp] theorem clearRecord_sup (s : State) : (clearRecord s).sup = s.sup := rfl
@[simp] theorem clearRecord_edge (s : State) : (clearRecord s).edge = s.edge := rfl
@[simp] theorem clearRecord_epoch (s : State) : (clearRecord s).epoch = s.epoch := rfl
@[simp] theorem clearRecord_inputs (s : State) : (clearRecord s).inputs = s.inputs := rfl
@[simp] theorem clearRecord_answer (s : State) : (clearRecord s).answer = s.answer := rfl

/-! ### A whole output and its descriptor (41_pointwise.md R136) -/

@[simp] theorem publish_params (f : Nat → Byte) (s : State) : (publish f s).params = s.params := rfl
@[simp] theorem publish_phase (f : Nat → Byte) (s : State) : (publish f s).phase = s.phase := rfl
@[simp] theorem publish_errCode (f : Nat → Byte) (s : State) : (publish f s).errCode = s.errCode := rfl
@[simp] theorem publish_errInfo (f : Nat → Byte) (s : State) : (publish f s).errInfo = s.errInfo := rfl
@[simp] theorem publish_upc (f : Nat → Byte) (s : State) : (publish f s).upc = s.upc := rfl
@[simp] theorem publish_filterType (f : Nat → Byte) (s : State) : (publish f s).filterType = s.filterType := rfl
@[simp] theorem publish_enabled (f : Nat → Byte) (s : State) : (publish f s).enabled = s.enabled := rfl
@[simp] theorem publish_lowThreshold (f : Nat → Byte) (s : State) : (publish f s).lowThreshold = s.lowThreshold := rfl
@[simp] theorem publish_highThreshold (f : Nat → Byte) (s : State) : (publish f s).highThreshold = s.highThreshold := rfl
@[simp] theorem publish_blurRadius (f : Nat → Byte) (s : State) : (publish f s).blurRadius = s.blurRadius := rfl
@[simp] theorem publish_thresholdValue (f : Nat → Byte) (s : State) : (publish f s).thresholdValue = s.thresholdValue := rfl
@[simp] theorem publish_srcWidth (f : Nat → Byte) (s : State) : (publish f s).srcWidth = s.srcWidth := rfl
@[simp] theorem publish_srcHeight (f : Nat → Byte) (s : State) : (publish f s).srcHeight = s.srcHeight := rfl
@[simp] theorem publish_srcLen (f : Nat → Byte) (s : State) : (publish f s).srcLen = s.srcLen := rfl
@[simp] theorem publish_dstWidth (f : Nat → Byte) (s : State) : (publish f s).dstWidth = s.srcWidth := rfl
@[simp] theorem publish_dstHeight (f : Nat → Byte) (s : State) : (publish f s).dstHeight = s.srcHeight := rfl
@[simp] theorem publish_dstLen (f : Nat → Byte) (s : State) : (publish f s).dstLen = toReg (4 * frameN s) := rfl
@[simp] theorem publish_src (f : Nat → Byte) (s : State) : (publish f s).src = s.src := rfl
@[simp] theorem publish_dst (f : Nat → Byte) (s : State) : (publish f s).dst = s.dst.fill (4 * frameN s) f := rfl
@[simp] theorem publish_luma (f : Nat → Byte) (s : State) : (publish f s).luma = s.luma := rfl
@[simp] theorem publish_tmp (f : Nat → Byte) (s : State) : (publish f s).tmp = s.tmp := rfl
@[simp] theorem publish_blur (f : Nat → Byte) (s : State) : (publish f s).blur = s.blur := rfl
@[simp] theorem publish_mag (f : Nat → Byte) (s : State) : (publish f s).mag = s.mag := rfl
@[simp] theorem publish_dir (f : Nat → Byte) (s : State) : (publish f s).dir = s.dir := rfl
@[simp] theorem publish_sup (f : Nat → Byte) (s : State) : (publish f s).sup = s.sup := rfl
@[simp] theorem publish_edge (f : Nat → Byte) (s : State) : (publish f s).edge = s.edge := rfl
@[simp] theorem publish_epoch (f : Nat → Byte) (s : State) : (publish f s).epoch = s.epoch := rfl
@[simp] theorem publish_inputs (f : Nat → Byte) (s : State) : (publish f s).inputs = s.inputs := rfl
@[simp] theorem publish_answer (f : Nat → Byte) (s : State) : (publish f s).answer = s.answer := rfl

/-! ### The frame and the spaces under the updates -/

@[simp] theorem frameW_advance (s : State) : frameW (advance s) = frameW s := rfl
@[simp] theorem frameH_advance (s : State) : frameH (advance s) = frameH s := rfl
@[simp] theorem frameN_advance (s : State) : frameN (advance s) = frameN s := rfl
@[simp] theorem srcAt_advance (s : State) : srcAt (advance s) = srcAt s := rfl
@[simp] theorem dstAt_advance (s : State) : dstAt (advance s) = dstAt s := rfl
@[simp] theorem planeAt_advance (s : State) : planeAt (advance s) = planeAt s := by
  funext p i; cases p <;> rfl
@[simp] theorem elementAt_advance (s : State) : elementAt (advance s) = elementAt s := by
  funext p x y; cases p <;> rfl
@[simp] theorem frameW_enterDone (s : State) : frameW (enterDone s) = frameW s := rfl
@[simp] theorem frameH_enterDone (s : State) : frameH (enterDone s) = frameH s := rfl
@[simp] theorem frameN_enterDone (s : State) : frameN (enterDone s) = frameN s := rfl
@[simp] theorem srcAt_enterDone (s : State) : srcAt (enterDone s) = srcAt s := rfl
@[simp] theorem dstAt_enterDone (s : State) : dstAt (enterDone s) = dstAt s := rfl
@[simp] theorem planeAt_enterDone (s : State) : planeAt (enterDone s) = planeAt s := by
  funext p i; cases p <;> rfl
@[simp] theorem elementAt_enterDone (s : State) : elementAt (enterDone s) = elementAt s := by
  funext p x y; cases p <;> rfl
@[simp] theorem frameW_trap (c : Cause) (info : Nat) (s : State) : frameW (trap c info s) = frameW s := rfl
@[simp] theorem frameH_trap (c : Cause) (info : Nat) (s : State) : frameH (trap c info s) = frameH s := rfl
@[simp] theorem frameN_trap (c : Cause) (info : Nat) (s : State) : frameN (trap c info s) = frameN s := rfl
@[simp] theorem srcAt_trap (c : Cause) (info : Nat) (s : State) : srcAt (trap c info s) = srcAt s := rfl
@[simp] theorem dstAt_trap (c : Cause) (info : Nat) (s : State) : dstAt (trap c info s) = dstAt s := rfl
@[simp] theorem planeAt_trap (c : Cause) (info : Nat) (s : State) : planeAt (trap c info s) = planeAt s := by
  funext p i; cases p <;> rfl
@[simp] theorem elementAt_trap (c : Cause) (info : Nat) (s : State) : elementAt (trap c info s) = elementAt s := by
  funext p x y; cases p <;> rfl
@[simp] theorem frameW_clearRecord (s : State) : frameW (clearRecord s) = frameW s := rfl
@[simp] theorem frameH_clearRecord (s : State) : frameH (clearRecord s) = frameH s := rfl
@[simp] theorem frameN_clearRecord (s : State) : frameN (clearRecord s) = frameN s := rfl
@[simp] theorem srcAt_clearRecord (s : State) : srcAt (clearRecord s) = srcAt s := rfl
@[simp] theorem dstAt_clearRecord (s : State) : dstAt (clearRecord s) = dstAt s := rfl
@[simp] theorem planeAt_clearRecord (s : State) : planeAt (clearRecord s) = planeAt s := by
  funext p i; cases p <;> rfl
@[simp] theorem elementAt_clearRecord (s : State) : elementAt (clearRecord s) = elementAt s := by
  funext p x y; cases p <;> rfl
@[simp] theorem frameW_publish (f : Nat → Byte) (s : State) : frameW (publish f s) = frameW s := rfl
@[simp] theorem frameH_publish (f : Nat → Byte) (s : State) : frameH (publish f s) = frameH s := rfl
@[simp] theorem frameN_publish (f : Nat → Byte) (s : State) : frameN (publish f s) = frameN s := rfl
@[simp] theorem srcAt_publish (f : Nat → Byte) (s : State) : srcAt (publish f s) = srcAt s := rfl
@[simp] theorem planeAt_publish (f : Nat → Byte) (s : State) : planeAt (publish f s) = planeAt s := by
  funext p i; cases p <;> rfl
@[simp] theorem elementAt_publish (f : Nat → Byte) (s : State) : elementAt (publish f s) = elementAt s := by
  funext p x y; cases p <;> rfl

/-- A state with one plane replaced reads the other planes as before: every plane reads through its own memory only. -/
theorem elementAt_eq (s : State) (p : Plane) (x y : Nat) : elementAt s p x y = planeAt s p (y * frameW s + x) := rfl

theorem srcAt_le (s : State) (i : Nat) : srcAt s i ≤ 255 := by
  have := (s.src.readOr (Config.unwritten s.epoch .src) i).isLt
  simp only [srcAt]; omega

theorem planeAt_le (s : State) (p : Plane) (i : Nat) : planeAt s p i ≤ 255 := by
  cases p <;> simp only [planeAt] <;> refine Nat.le_of_lt_succ (Nat.lt_of_lt_of_le (BitVec.isLt _) (by norm_num))

/-- A number that fits a register is what the register holds. -/
theorem toReg_of_lt {v : Nat} (h : v < 2 ^ 32) : toReg v = BitVec.ofNat 32 v := if_pos h

theorem toReg_word (v : Word) : toReg v.toNat = v := by
  rw [toReg_of_lt v.isLt]; simp

theorem toReg_toNat {v : Nat} (h : v < 2 ^ 32) : (toReg v).toNat = v := by
  rw [toReg_of_lt h, BitVec.toNat_ofNat]; omega

end Sys2Proof.Machine
end

