-- ==== Sys2Proof/Laws/Micro.lean ====
section
/-! SUPPORT. The shape of the micro-ops: when a datapath micro-op answers and with what, indices and coordinates of a frame, and
the pixels that a publishing micro-op writes. -/

namespace Sys2Proof.Machine

/-! ### Datapath micro-ops -/

theorem datapath_of_fits (f : State → State) {s : State} (h : frameN s ≤ s.params.npixMax) :
    datapath f s = .next (advance (f s)) := if_pos h

/-- Everything a datapath micro-op can do: it stops on a frame beyond the planes, or runs `f` and advances. -/
theorem datapath_next {f : State → State} {s t : State} (h : datapath f s = .next t) :
    frameN s ≤ s.params.npixMax ∧ t = advance (f s) := by
  unfold datapath at h
  split at h
  · exact ⟨‹_›, by injection h with h; exact h.symm⟩
  · cases h

/-- BLUR2D runs the publishing form when the radius is in the ROM. -/
theorem execBlur2d_of_radius {s : State} (h : s.blurRadius.toNat ≤ s.params.rmax) :
    execBlur2d s = datapath (publish fun k =>
      byteOf (blur2dAt s s.blurRadius.toNat (columnOf (frameW s) (k / 4)) (rowOf (frameW s) (k / 4)) (k % 4))) s :=
  if_neg (by omega)

theorem execBlur2d_next {s t : State} (h : execBlur2d s = .next t) : s.blurRadius.toNat ≤ s.params.rmax := by
  unfold execBlur2d at h
  split at h
  · cases h
  · omega

/-! ### Coordinates -/

theorem index_lt {w h x y : Nat} (hx : x < w) (hy : y < h) : y * w + x < w * h := by
  have : (y + 1) * w ≤ h * w := Nat.mul_le_mul_right w hy
  rw [Nat.mul_comm w h]
  rw [Nat.add_mul] at this
  omega

theorem columnOf_index {w x y : Nat} (hx : x < w) : columnOf w (y * w + x) = x := by
  unfold columnOf; rw [Nat.add_comm, Nat.add_mul_mod_self_right, Nat.mod_eq_of_lt hx]

theorem rowOf_index {w x y : Nat} (hx : x < w) : rowOf w (y * w + x) = y := by
  unfold rowOf; rw [Nat.add_comm, Nat.add_mul_div_right _ _ (by omega), Nat.div_eq_of_lt hx, Nat.zero_add]

/-- Every index of a frame is that of its column and row. -/
theorem index_cases {w h i : Nat} (hi : i < w * h) : ∃ x < w, ∃ y < h, i = y * w + x := by
  have hw : 0 < w := Nat.pos_of_ne_zero (by rintro rfl; simp at hi)
  refine ⟨i % w, Nat.mod_lt _ hw, i / w, Nat.div_lt_of_lt_mul hi, ?_⟩
  rw [Nat.mul_comm]
  exact (Nat.div_add_mod i w).symm

theorem index_inj {w x y x' y' : Nat} (hx : x < w) (hx' : x' < w) (h : y * w + x = y' * w + x') : x = x' ∧ y = y' := by
  have h1 := columnOf_index (y := y) hx
  have h2 := columnOf_index (y := y') hx'
  have h3 := rowOf_index (y := y) hx
  have h4 := rowOf_index (y := y') hx'
  rw [h] at h1 h3
  exact ⟨h1.symm.trans h2, h3.symm.trans h4⟩

/-! ### What a well-formed instance gives -/

theorem Params.capacity_pos {p : Params} (h : p.wf = true) : 1 ≤ p.npixMax := by
  simp only [Params.wf, Bool.and_eq_true, decide_eq_true_eq] at h
  exact h.1.1

theorem Params.capacity_lt {p : Params} (h : p.wf = true) : 4 * p.npixMax < 2 ^ 32 := by
  simp only [Params.wf, Bool.and_eq_true, decide_eq_true_eq] at h
  exact h.1.2

theorem Params.coefRest_le {p : Params} (h : p.wf = true) {r : Nat} (hr : r ≤ p.rmax) : coefRest r ≤ 65536 := by
  simp only [Params.wf, Bool.and_eq_true, List.all_eq_true, decide_eq_true_eq, List.mem_range] at h
  exact h.2 r (by omega)

theorem frame_bytes_lt {s : State} (hw : s.params.wf = true) (h : frameN s ≤ s.params.npixMax) : 4 * frameN s < 2 ^ 32 := by
  have := Params.capacity_lt hw
  omega

/-! ### Published pixels -/

/-- The next state of a publishing micro-op, as an update of the state before it. -/
theorem advance_publish (f : Nat → Byte) {s : State} (hw : s.params.wf = true) (h : frameN s ≤ s.params.npixMax) :
    advance (publish f s) = { s with
      upc := s.upc + 1, dst := s.dst.fill (4 * frameN s) f
      dstWidth := s.srcWidth, dstHeight := s.srcHeight, dstLen := BitVec.ofNat 32 (4 * frameN s) } := by
  simp only [advance, publish, toReg_of_lt (frame_bytes_lt hw h)]

/-- The four bytes of a pixel written in gray. -/
theorem grayPixelByte_channel (v a : Nat → Nat) (i c : Nat) (hc : c < 3) : grayPixelByte v a (4 * i + c) = byteOf (v i) := by
  unfold grayPixelByte
  rw [if_neg (by omega), show (4 * i + c) / 4 = i by omega]

theorem grayPixelByte_alpha (v a : Nat → Nat) (i : Nat) : grayPixelByte v a (4 * i + 3) = byteOf (a i) := by
  unfold grayPixelByte
  rw [if_pos (by omega), show (4 * i + 3) / 4 = i by omega]

/-- The bytes of a gray image in a filled memory. -/
theorem read_fill_gray (m : Memory 8) (v a : Nat → Nat) {n i : Nat} (hi : i < n) :
    (m.fill (4 * n) (grayPixelByte v a)).read (4 * i) = some (byteOf (v i)) ∧
    (m.fill (4 * n) (grayPixelByte v a)).read (4 * i + 1) = some (byteOf (v i)) ∧
    (m.fill (4 * n) (grayPixelByte v a)).read (4 * i + 2) = some (byteOf (v i)) ∧
    (m.fill (4 * n) (grayPixelByte v a)).read (4 * i + 3) = some (byteOf (a i)) := by
  refine ⟨?_, ?_, ?_, ?_⟩ <;> rw [Memory.read_fill, if_pos (by omega)]
  · exact congrArg some (grayPixelByte_channel v a i 0 (by omega))
  · exact congrArg some (grayPixelByte_channel v a i 1 (by omega))
  · exact congrArg some (grayPixelByte_channel v a i 2 (by omega))
  · exact congrArg some (grayPixelByte_alpha v a i)

theorem read_fill_beyond {w : Nat} (m : Memory w) (n : Nat) (f : Nat → BitVec w) {i : Nat} (h : n ≤ i) :
    (m.fill n f).read i = m.read i := by
  rw [Memory.read_fill, if_neg (by omega)]

theorem read_fill_index {v : Nat} (m : Memory v) {w h x y : Nat} (f : Nat → BitVec v) (hx : x < w) (hy : y < h) :
    (m.fill (w * h) f).read (y * w + x) = some (f (y * w + x)) := by
  rw [Memory.read_fill, if_pos (index_lt hx hy)]

end Sys2Proof.Machine
end

