-- ==== Sys2Proof/Laws/Exec.lean ====
section
/-! SUPPORT. One equation per datapath micro-op (the state it leaves when the frame fits the planes), the inversion of each, and
what the pass of HYST does to each element. -/

namespace Sys2Proof.Machine

/-! ### The plane writers (41_pointwise.md R134, 42_gaussian.md R152, R153, 43_gradient_nms.md R170, R175,
44_threshold_hysteresis.md R190, R192) -/

theorem exec_luma {s : State} (h : frameN s ≤ s.params.npixMax) : exec .luma s = .next { s with
    upc := s.upc + 1, luma := s.luma.fill (frameN s) fun i => byteOf (lumaOfPixel s i) } :=
  datapath_of_fits (fun s => { s with luma := s.luma.fill (frameN s) fun i => byteOf (lumaOfPixel s i) }) h

theorem exec_hblur {s : State} (h : frameN s ≤ s.params.npixMax) : exec .hblur s = .next { s with
    upc := s.upc + 1
    tmp := s.tmp.fill (frameN s) fun i => byteOf (hblurAt s (columnOf (frameW s) i) (rowOf (frameW s) i)) } :=
  datapath_of_fits (fun s => { s with
    tmp := s.tmp.fill (frameN s) fun i => byteOf (hblurAt s (columnOf (frameW s) i) (rowOf (frameW s) i)) }) h

theorem exec_vblur {s : State} (h : frameN s ≤ s.params.npixMax) : exec .vblur s = .next { s with
    upc := s.upc + 1
    blur := s.blur.fill (frameN s) fun i => byteOf (vblurAt s (columnOf (frameW s) i) (rowOf (frameW s) i)) } :=
  datapath_of_fits (fun s => { s with
    blur := s.blur.fill (frameN s) fun i => byteOf (vblurAt s (columnOf (frameW s) i) (rowOf (frameW s) i)) }) h

theorem exec_sobel {s : State} (h : frameN s ≤ s.params.npixMax) : exec .sobel s = .next { s with
    upc := s.upc + 1
    mag := s.mag.fill (frameN s) fun i => byteOf (sobelMag s (columnOf (frameW s) i) (rowOf (frameW s) i))
    dir := s.dir.fill (frameN s) fun i => BitVec.ofNat 2 (sobelDir s (columnOf (frameW s) i) (rowOf (frameW s) i)) } :=
  datapath_of_fits (fun s => { s with
    mag := s.mag.fill (frameN s) fun i => byteOf (sobelMag s (columnOf (frameW s) i) (rowOf (frameW s) i))
    dir := s.dir.fill (frameN s) fun i => BitVec.ofNat 2 (sobelDir s (columnOf (frameW s) i) (rowOf (frameW s) i)) }) h

theorem exec_nms {s : State} (h : frameN s ≤ s.params.npixMax) : exec .nms s = .next { s with
    upc := s.upc + 1
    sup := s.sup.fill (frameN s) fun i => byteOf (nmsAt s (columnOf (frameW s) i) (rowOf (frameW s) i)) } :=
  datapath_of_fits (fun s => { s with
    sup := s.sup.fill (frameN s) fun i => byteOf (nmsAt s (columnOf (frameW s) i) (rowOf (frameW s) i)) }) h

theorem exec_dthr {s : State} (h : frameN s ≤ s.params.npixMax) : exec .dthr s = .next { s with
    upc := s.upc + 1
    edge := s.edge.fill (frameN s) fun i =>
      byteOf (markOf s.lowThreshold.toNat s.highThreshold.toNat (planeAt s .sup i)) } :=
  datapath_of_fits (fun s => { s with
    edge := s.edge.fill (frameN s) fun i =>
      byteOf (markOf s.lowThreshold.toNat s.highThreshold.toNat (planeAt s .sup i)) }) h

theorem exec_hyst {s : State} (h : frameN s ≤ s.params.npixMax) : exec .hyst s = .next { s with
    upc := s.upc + 1
    edge := hystPass (Config.unwritten s.epoch (.plane .edge)) (frameW s) (frameH s) s.edge } :=
  datapath_of_fits (fun s => { s with
    edge := hystPass (Config.unwritten s.epoch (.plane .edge)) (frameW s) (frameH s) s.edge }) h

/-! ### The DST writers (41_pointwise.md R131 to R136, 42_gaussian.md R151) -/

theorem exec_copy {s : State} (h : frameN s ≤ s.params.npixMax) :
    exec .copy s = .next (advance (publish (fun k => byteOf (srcAt s k)) s)) := datapath_of_fits _ h

theorem exec_grayf {s : State} (h : frameN s ≤ s.params.npixMax) : exec .grayf s = .next
    (advance (publish (grayPixelByte (lumaOfPixel s) fun i => srcAt s (4 * i + 3)) s)) := datapath_of_fits _ h

theorem exec_thresh {s : State} (h : frameN s ≤ s.params.npixMax) : exec .thresh s = .next
    (advance (publish (grayPixelByte (fun i => binarize s.thresholdValue.toNat (lumaOfPixel s i))
      fun i => srcAt s (4 * i + 3)) s)) := datapath_of_fits _ h

theorem exec_expand {s : State} (h : frameN s ≤ s.params.npixMax) : exec .expand s = .next
    (advance (publish (grayPixelByte (planeAt s .edge) fun _ => 255) s)) := datapath_of_fits _ h

theorem exec_blur2d {s : State} (h : frameN s ≤ s.params.npixMax) (hr : s.blurRadius.toNat ≤ s.params.rmax) :
    exec .blur2d s = .next (advance (publish (fun k =>
      byteOf (blur2dAt s s.blurRadius.toNat (columnOf (frameW s) (k / 4)) (rowOf (frameW s) (k / 4)) (k % 4))) s)) :=
  (execBlur2d_of_radius hr).trans (datapath_of_fits _ h)

/-- Channel `c` of pixel `(x, y)` of a filled DST. -/
theorem read_fill_pixel (m : Memory 8) {w h x y c : Nat} (f : Nat → Byte) (hx : x < w) (hy : y < h) (hc : c < 4) :
    (m.fill (4 * (w * h)) f).read (4 * (y * w + x) + c) = some (f (4 * (y * w + x) + c)) := by
  have := index_lt hx hy
  rw [Memory.read_fill, if_pos (by omega)]

/-! ### Inversions -/

/-- A datapath micro-op that answers a next state had a frame the planes hold. -/
theorem exec_fits {i : Instr} (hi : i ∈ dstWriters ++ planeWriters) {s t : State} (h : exec i s = .next t) :
    frameN s ≤ s.params.npixMax := by
  by_contra hf
  have stop (f : State → State) : datapath f s = .fault .frameBeyondPlanes := if_neg hf
  cases i with
  | halt | check | chkrad | chkthr => simp [dstWriters, planeWriters] at hi
  | blur2d =>
    have e := (execBlur2d_of_radius (execBlur2d_next h)).symm.trans h
    rw [stop] at e
    cases e
  | luma => unfold exec execLuma at h; rw [stop] at h; cases h
  | copy | grayf | thresh | expand => exact absurd ((stop _).symm.trans h) (by simp)
  | hblur => unfold exec execHblur at h; rw [stop] at h; cases h
  | vblur => unfold exec execVblur at h; rw [stop] at h; cases h
  | sobel => unfold exec execSobel at h; rw [stop] at h; cases h
  | nms => unfold exec execNms at h; rw [stop] at h; cases h
  | dthr => unfold exec execDthr at h; rw [stop] at h; cases h
  | hyst => unfold exec execHyst at h; rw [stop] at h; cases h

/-! ### Plane elements that have been written -/

theorem planeAt_luma {s : State} {i : Nat} {v} (h : s.luma.read i = some v) : planeAt s .luma i = v.toNat :=
  congrArg BitVec.toNat (Memory.readOr_of_read h _)

theorem planeAt_tmp {s : State} {i : Nat} {v} (h : s.tmp.read i = some v) : planeAt s .tmp i = v.toNat :=
  congrArg BitVec.toNat (Memory.readOr_of_read h _)

theorem planeAt_blur {s : State} {i : Nat} {v} (h : s.blur.read i = some v) : planeAt s .blur i = v.toNat :=
  congrArg BitVec.toNat (Memory.readOr_of_read h _)

theorem planeAt_mag {s : State} {i : Nat} {v} (h : s.mag.read i = some v) : planeAt s .mag i = v.toNat :=
  congrArg BitVec.toNat (Memory.readOr_of_read h _)

theorem planeAt_dir {s : State} {i : Nat} {v} (h : s.dir.read i = some v) : planeAt s .dir i = v.toNat :=
  congrArg BitVec.toNat (Memory.readOr_of_read h _)

theorem planeAt_sup {s : State} {i : Nat} {v} (h : s.sup.read i = some v) : planeAt s .sup i = v.toNat :=
  congrArg BitVec.toNat (Memory.readOr_of_read h _)

theorem planeAt_edge {s : State} {i : Nat} {v} (h : s.edge.read i = some v) : planeAt s .edge i = v.toNat :=
  congrArg BitVec.toNat (Memory.readOr_of_read h _)

end Sys2Proof.Machine
end

