-- ==== Sys2Proof/Laws/Hysteresis.lean ====
section
/-! SUPPORT. The single raster-order pass of HYST (44_threshold_hysteresis.md R192, R193): what a visit writes, the order of the
visits, and what the whole pass leaves at every element. -/

namespace Sys2Proof.Machine

/-- Element `(x, y)` of a plane of width `w`, as HYST reads it. -/
def markAt (free : Nat → Byte) (w : Nat) (m : Memory 8) (x y : Nat) : Nat := (m.readOr free (indexOf w x y)).toNat

variable (free : Nat → Byte) (w : Nat)

/-! ### A visit -/

/-- A visit writes at most the visited element. -/
theorem hystVisit_read {m : Memory 8} {p : Nat × Nat} {i : Nat} (h : i ≠ indexOf w p.1 p.2) :
    (hystVisit free w m p).read i = m.read i := by
  unfold hystVisit
  simp only
  split
  · rw [Memory.read_write, if_neg h]
  · rfl

/-- What a visit leaves at the visited element. -/
theorem markAt_hystVisit (m : Memory 8) (x y : Nat) : markAt free w (hystVisit free w m (x, y)) x y =
    if markAt free w m x y = 128 then
      if (eightNeighbours x y).any fun q => markAt free w m q.1 q.2 == 255 then 255 else 0
    else markAt free w m x y := by
  unfold hystVisit markAt
  simp only
  split
  · rw [Memory.readOr_write, if_pos rfl]
    split <;> rfl
  · rfl

theorem hystVisit_canonical {m : Memory 8} {size : Nat} (hm : m.canonical size) {p : Nat × Nat}
    (hp : indexOf w p.1 p.2 < size) : (hystVisit free w m p).canonical size := by
  unfold hystVisit
  simp only
  split
  · exact Memory.write_canonical hm hp _
  · exact hm

theorem hystVisit_written {m : Memory 8} {n : Nat} (hm : m.written n) (p : Nat × Nat) :
    (hystVisit free w m p).written n := by
  unfold hystVisit
  simp only
  split
  · exact Memory.written_write hm _ _
  · exact hm

/-! ### The order of the visits -/

theorem mem_interiorRaster {w h x y : Nat} : (x, y) ∈ interiorRaster w h ↔ isInterior w h x y := by
  simp only [interiorRaster, List.mem_flatMap, List.mem_map, List.mem_range, Prod.mk.injEq, isInterior]
  constructor
  · rintro ⟨b, hb, a, ha, rfl, rfl⟩
    omega
  · intro hi
    exact ⟨y - 1, by omega, x - 1, by omega, by omega, by omega⟩

/-- Raster order is the order of the indices. -/
theorem interiorRaster_sorted (w h : Nat) :
    (interiorRaster w h).Pairwise fun p q => indexOf w p.1 p.2 < indexOf w q.1 q.2 := by
  unfold interiorRaster
  rw [List.pairwise_flatMap]
  constructor
  · intro y _
    rw [List.pairwise_map]
    refine List.pairwise_lt_range.imp ?_
    intro a b hab
    simp only [indexOf]
    omega
  · refine List.pairwise_lt_range.imp ?_
    intro a b hab p hp q hq
    obtain ⟨c, hc, rfl⟩ := List.mem_map.1 hp
    obtain ⟨d, hd, rfl⟩ := List.mem_map.1 hq
    have hc := List.mem_range.1 hc
    simp only [indexOf]
    have : (a + 1 + 1) * w ≤ (b + 1) * w := Nat.mul_le_mul_right w (by omega)
    have e : (a + 1 + 1) * w = (a + 1) * w + w := Nat.succ_mul _ _
    omega

/-! ### A sequence of visits -/

theorem hystFold_read {l : List (Nat × Nat)} {m : Memory 8} {i : Nat} (h : ∀ p ∈ l, i ≠ indexOf w p.1 p.2) :
    (l.foldl (hystVisit free w) m).read i = m.read i := by
  induction l generalizing m with
  | nil => rfl
  | cons p l ih =>
    rw [List.foldl_cons, ih fun q hq => h q (by simp [hq]), hystVisit_read free w (h p (by simp))]

theorem markAt_congr {m m' : Memory 8} {x y : Nat} (h : m.read (indexOf w x y) = m'.read (indexOf w x y)) :
    markAt free w m x y = markAt free w m' x y := by
  unfold markAt Memory.readOr
  rw [h]

/-- What the pass leaves outside the interior. -/
theorem hystPass_read {h : Nat} {m : Memory 8} {i : Nat} (hi : ∀ x y, isInterior w h x y → i ≠ y * w + x) :
    (hystPass free w h m).read i = m.read i :=
  hystFold_read free w fun p hp => hi p.1 p.2 (mem_interiorRaster.1 hp)

/-- What the pass leaves at an interior element. -/
theorem markAt_hystPass {h : Nat} (m : Memory 8) {x y : Nat} (hxy : isInterior w h x y) :
    markAt free w (hystPass free w h m) x y =
      settledMark (markAt free w m) (markAt free w (hystPass free w h m)) x y := by
  obtain ⟨l, r, hl⟩ := List.append_of_mem (mem_interiorRaster.2 hxy)
  have hs := interiorRaster_sorted w h
  rw [hl, List.pairwise_append] at hs
  obtain ⟨-, hr, hlr⟩ := hs
  have hbefore : ∀ p ∈ l, indexOf w p.1 p.2 < indexOf w x y := fun p hp => hlr p hp (x, y) (by simp)
  have hafter : ∀ p ∈ r, indexOf w x y < indexOf w p.1 p.2 := fun p hp => (List.pairwise_cons.1 hr).1 p hp
  have hpass : hystPass free w h m =
      r.foldl (hystVisit free w) (hystVisit free w (l.foldl (hystVisit free w) m) (x, y)) := by
    rw [hystPass, hl, List.foldl_append, List.foldl_cons]
  -- the elements behind `(x, y)` are still as they were when it is visited
  have later (a b : Nat) (hab : indexOf w x y ≤ indexOf w a b) :
      markAt free w (l.foldl (hystVisit free w) m) a b = markAt free w m a b :=
    markAt_congr free w (hystFold_read free w fun p hp => by have := hbefore p hp; omega)
  -- the elements before it are already as the pass leaves them
  have earlier (a b : Nat) (hab : indexOf w a b < indexOf w x y) :
      markAt free w (l.foldl (hystVisit free w) m) a b = markAt free w (hystPass free w h m) a b := by
    refine (markAt_congr free w ?_).symm
    rw [hpass, hystFold_read free w fun p hp => by have := hafter p hp; omega]
    exact hystVisit_read free w (by simp only; omega)
  have self : markAt free w (hystPass free w h m) x y =
      markAt free w (hystVisit free w (l.foldl (hystVisit free w) m) (x, y)) x y := by
    refine markAt_congr free w ?_
    rw [hpass, hystFold_read free w fun p hp => by have := hafter p hp; omega]
  have up : (y - 1) * w + w = y * w := by
    obtain ⟨k, rfl⟩ : ∃ k, y = k + 1 := ⟨y - 1, by have := hxy.2.2.1; omega⟩
    rw [Nat.add_sub_cancel, Nat.succ_mul]
  have down : (y + 1) * w = y * w + w := Nat.succ_mul y w
  obtain ⟨hx1, hx2, -, -⟩ := hxy
  rw [self, markAt_hystVisit, later x y (Nat.le_refl _), settledMark]
  simp only [eightNeighbours, List.any_cons, List.any_nil, Bool.or_false, Bool.or_eq_true, beq_iff_eq]
  rw [earlier (x - 1) (y - 1) (by simp only [indexOf]; omega), earlier x (y - 1) (by simp only [indexOf]; omega),
    earlier (x + 1) (y - 1) (by simp only [indexOf]; omega), earlier (x - 1) y (by simp only [indexOf]; omega),
    later (x + 1) y (by simp only [indexOf]; omega), later (x - 1) (y + 1) (by simp only [indexOf]; omega),
    later x (y + 1) (by simp only [indexOf]; omega), later (x + 1) (y + 1) (by simp only [indexOf]; omega)]

theorem hystPass_canonical {h : Nat} {m : Memory 8} {size : Nat} (hm : m.canonical size) (hs : w * h ≤ size) :
    (hystPass free w h m).canonical size := by
  unfold hystPass
  have hl : ∀ p ∈ interiorRaster w h, indexOf w p.1 p.2 < size := by
    rintro ⟨x, y⟩ hp
    obtain ⟨-, hx, -, hy⟩ := mem_interiorRaster.1 hp
    have : (y + 1) * w ≤ h * w := Nat.mul_le_mul_right w (by omega)
    rw [Nat.mul_comm w h] at hs
    rw [Nat.succ_mul] at this
    simp only [indexOf]
    omega
  generalize interiorRaster w h = l at hl
  induction l generalizing m with
  | nil => exact hm
  | cons p l ih => exact ih (hystVisit_canonical free w hm (hl p (by simp))) fun q hq => hl q (by simp [hq])

theorem hystPass_written {h : Nat} {m : Memory 8} {n : Nat} (hm : m.written n) : (hystPass free w h m).written n := by
  unfold hystPass
  generalize interiorRaster w h = l
  induction l generalizing m with
  | nil => exact hm
  | cons p l ih => exact ih (hystVisit_written free w hm p)

end Sys2Proof.Machine
end

