-- ==== Sys2Proof/Laws/Step.lean ====
section
/-! SUPPORT. What a step can do, said once; and that every operation of the machine keeps all nine memories canonical. -/

namespace Sys2Proof.Machine

/-! ### A step, by what the outside world does -/

theorem step_silent {s : State} (h : s.inputs = []) : step s = sequencerTurn false s := by
  simp only [step, nextInput, h, takeInput]

theorem step_tick {s : State} {e : Bool} {rest : List Input} (h : s.inputs = .tick e :: rest) :
    step s = sequencerTurn e { s with inputs := rest } := by
  simp only [step, nextInput, h, takeInput]

theorem step_host {s : State} {t : Transaction} {rest : List Input} (h : s.inputs = .host t :: rest) :
    step s = .next (transact t { s with inputs := rest }) := by
  simp only [step, nextInput, h, takeInput]

theorem step_rst {s : State} {rest : List Input} (h : s.inputs = .rst :: rest) :
    step s = .next { State.resetOf s.params (s.epoch + 1) with inputs := rest } := by
  simp only [step, nextInput, h, takeInput, resetCore]

theorem sequencerTurn_idle {s : State} (h : s.phase ≠ .busy) (e : Bool) : sequencerTurn e s = .next s := if_neg h

theorem sequencerTurn_fail {s : State} (h : s.phase = .busy) :
    sequencerTurn true s = .next (trap .computationFailure 0 s) := by simp [sequencerTurn, h]

theorem sequencerTurn_word {s : State} (h : s.phase = .busy) : sequencerTurn false s = execWord (fetch s) s := by
  simp [sequencerTurn, h]

theorem execWord_op {w : Byte} {i : Instr} (h : decode w = .op i) (s : State) : execWord w s = exec i s := by
  simp only [execWord, h]

/-- A step of a BUSY core in a silent world, by the word at `upc`. -/
theorem step_exec {s t : State} (i : Instr) (hi : s.inputs = []) (hb : s.phase = .busy) (hd : decode (urom s.upc) = .op i)
    (hx : exec i s = .next t) : step s = .next t :=
  ((step_silent hi).trans (sequencerTurn_word hb)).trans ((execWord_op (w := fetch s) hd s).trans hx)

/-- Everything a step can do: a transaction, a reset, nothing, or a turn of a BUSY sequencer, on the state less the input it
consumed. -/
theorem step_cases {s : State} {o : Host.Outcome State Fault Refusal} (h : step s = o) : ∃ rest,
    (∃ t, s.inputs = .host t :: rest ∧ o = .next (transact t { s with inputs := rest })) ∨
    (s.inputs = .rst :: rest ∧ o = .next { State.resetOf s.params (s.epoch + 1) with inputs := rest }) ∨
    (((s.inputs = [] ∧ rest = []) ∨ ∃ e, s.inputs = .tick e :: rest) ∧
      (s.phase ≠ .busy ∧ o = .next { s with inputs := rest } ∨
        s.phase = .busy ∧ o = .next (trap .computationFailure 0 { s with inputs := rest }) ∨
        s.phase = .busy ∧ o = execWord (fetch s) { s with inputs := rest })) := by
  match hi : s.inputs with
  | [] =>
    refine ⟨[], .inr (.inr ⟨.inl ⟨rfl, rfl⟩, ?_⟩)⟩
    have e : { s with inputs := [] } = s := by rw [← hi]
    rw [step_silent hi] at h
    rw [e]
    by_cases hb : s.phase = .busy
    · exact .inr (.inr ⟨hb, h.symm.trans (sequencerTurn_word hb)⟩)
    · exact .inl ⟨hb, h.symm.trans (sequencerTurn_idle hb _)⟩
  | .host t :: rest => exact ⟨rest, .inl ⟨t, rfl, h.symm.trans (step_host hi)⟩⟩
  | .rst :: rest => exact ⟨rest, .inr (.inl ⟨rfl, h.symm.trans (step_rst hi)⟩)⟩
  | .tick e :: rest =>
    refine ⟨rest, .inr (.inr ⟨.inr ⟨e, rfl⟩, ?_⟩)⟩
    rw [step_tick hi] at h
    by_cases hb : s.phase = .busy
    · cases e with
      | true => exact .inr (.inl ⟨hb, h.symm.trans (sequencerTurn_fail hb)⟩)
      | false => exact .inr (.inr ⟨hb, h.symm.trans (sequencerTurn_word hb)⟩)
    · exact .inl ⟨hb, h.symm.trans (sequencerTurn_idle (s := { s with inputs := rest }) hb e)⟩

/-! ### Runs -/

theorem run_succ {s t : State} (h : step s = .next t) (k : Nat) :
    Host.Core.run Sys2Proof.core (k + 1) s = Host.Core.run Sys2Proof.core k t := by
  have e : Host.Core.step Sys2Proof.core s = .next t := h
  simp only [Host.Core.run, e]

/-! ### What a plane writer keeps -/

theorem planeWriter_next {i : Instr} {s t : State} (hi : i ∈ planeWriters) (h : exec i s = .next t) : t = { s with
    upc := s.upc + 1, luma := t.luma, tmp := t.tmp, blur := t.blur, mag := t.mag, dir := t.dir, sup := t.sup, edge := t.edge } := by
  have hf := exec_fits (List.mem_append_right _ hi) h
  cases i with
  | luma => rw [exec_luma hf] at h; cases h; rfl
  | hblur => rw [exec_hblur hf] at h; cases h; rfl
  | vblur => rw [exec_vblur hf] at h; cases h; rfl
  | sobel => rw [exec_sobel hf] at h; cases h; rfl
  | nms => rw [exec_nms hf] at h; cases h; rfl
  | dthr => rw [exec_dthr hf] at h; cases h; rfl
  | hyst => rw [exec_hyst hf] at h; cases h; rfl
  | _ => simp [planeWriters] at hi

/-! ### STATUS.STATE (10_state.md R30) -/

/-- What a micro-op does to the state: nothing, HALT's DONE, or a trap. -/
theorem exec_phase {i : Instr} {s t : State} (h : exec i s = .next t) :
    t.phase = s.phase ∨ (i = .halt ∧ t.phase = .done) ∨ ∃ c n, t = trap c n s := by
  by_cases hi : i ∈ dstWriters ++ planeWriters
  · have hf := exec_fits hi h
    cases i with
    | halt | check | chkrad | chkthr => simp [dstWriters, planeWriters] at hi
    | copy => rw [exec_copy hf] at h; cases h; exact .inl rfl
    | grayf => rw [exec_grayf hf] at h; cases h; exact .inl rfl
    | thresh => rw [exec_thresh hf] at h; cases h; exact .inl rfl
    | expand => rw [exec_expand hf] at h; cases h; exact .inl rfl
    | blur2d => rw [exec_blur2d hf (execBlur2d_next h)] at h; cases h; exact .inl rfl
    | luma => rw [exec_luma hf] at h; cases h; exact .inl rfl
    | hblur => rw [exec_hblur hf] at h; cases h; exact .inl rfl
    | vblur => rw [exec_vblur hf] at h; cases h; exact .inl rfl
    | sobel => rw [exec_sobel hf] at h; cases h; exact .inl rfl
    | nms => rw [exec_nms hf] at h; cases h; exact .inl rfl
    | dthr => rw [exec_dthr hf] at h; cases h; exact .inl rfl
    | hyst => rw [exec_hyst hf] at h; cases h; exact .inl rfl
  · cases i with
    | halt => cases h; exact .inr (.inl ⟨rfl, rfl⟩)
    | check | chkrad | chkthr =>
      cases h
      unfold checked
      split
      · exact .inr (.inr ⟨_, _, rfl⟩)
      · exact .inl rfl
    | _ => simp [dstWriters, planeWriters] at hi

theorem execWord_phase {w : Byte} {s t : State} (h : execWord w s = .next t) :
    t.phase = s.phase ∨ (decode w = .op .halt ∧ t.phase = .done) ∨ ∃ c n, t = trap c n s := by
  unfold execWord at h
  split at h
  · rename_i i hi
    rcases exec_phase h with h1 | ⟨rfl, h1⟩ | h1
    · exact .inl h1
    · exact .inr (.inl ⟨hi, h1⟩)
    · exact .inr (.inr h1)
  · injection h with h
    exact .inr (.inr ⟨_, _, h.symm⟩)

/-! ### The memories stay canonical -/

theorem memories_withDst {s : State} (h : MemoriesCanonical s) {m : Memory 8} (hm : m.canonical (4 * s.params.npixMax)) :
    MemoriesCanonical { s with dst := m } := { h with dst := hm }

theorem publish_memories {s : State} (h : MemoriesCanonical s) (hf : frameN s ≤ s.params.npixMax) (f : Nat → Byte) :
    MemoriesCanonical (advance (publish f s)) :=
  { h with dst := Memory.fill_canonical h.dst (Nat.mul_le_mul_left 4 hf) f }

/-- No micro-op breaks the canonical form of a memory or leaves a space. -/
theorem exec_memories {i : Instr} {s t : State} (h : MemoriesCanonical s) (hs : exec i s = .next t) :
    MemoriesCanonical t := by
  by_cases hi : i ∈ dstWriters ++ planeWriters
  · have hf := exec_fits hi hs
    cases i with
    | halt | check | chkrad | chkthr => simp [dstWriters, planeWriters] at hi
    | copy => rw [exec_copy hf] at hs; cases hs; exact publish_memories h hf _
    | grayf => rw [exec_grayf hf] at hs; cases hs; exact publish_memories h hf _
    | thresh => rw [exec_thresh hf] at hs; cases hs; exact publish_memories h hf _
    | expand => rw [exec_expand hf] at hs; cases hs; exact publish_memories h hf _
    | blur2d => rw [exec_blur2d hf (execBlur2d_next hs)] at hs; cases hs; exact publish_memories h hf _
    | luma => rw [exec_luma hf] at hs; cases hs; exact { h with luma := Memory.fill_canonical h.luma hf _ }
    | hblur => rw [exec_hblur hf] at hs; cases hs; exact { h with tmp := Memory.fill_canonical h.tmp hf _ }
    | vblur => rw [exec_vblur hf] at hs; cases hs; exact { h with blur := Memory.fill_canonical h.blur hf _ }
    | sobel =>
      rw [exec_sobel hf] at hs
      cases hs
      exact { h with mag := Memory.fill_canonical h.mag hf _, dir := Memory.fill_canonical h.dir hf _ }
    | nms => rw [exec_nms hf] at hs; cases hs; exact { h with sup := Memory.fill_canonical h.sup hf _ }
    | dthr => rw [exec_dthr hf] at hs; cases hs; exact { h with edge := Memory.fill_canonical h.edge hf _ }
    | hyst => rw [exec_hyst hf] at hs; cases hs; exact { h with edge := hystPass_canonical _ _ h.edge hf }
  · cases i with
    | halt => cases hs; exact { h with }
    | check | chkrad | chkthr =>
      cases hs
      unfold checked
      split <;> exact { h with }
    | _ => simp [dstWriters, planeWriters] at hi

/-- No transaction does. -/
theorem transact_memories {s : State} (h : MemoriesCanonical s) (t : Transaction) : MemoriesCanonical (transact t s) := by
  cases t with
  | wrbSrc i b =>
    unfold transact srcWrite
    simp only
    split
    · exact { h with src := Memory.write_canonical h.src (by omega) b }
    · exact h
  | wr i v =>
    have start (s : State) (h : MemoriesCanonical s) : MemoriesCanonical (startCommand s) := by
      unfold startCommand
      simp only
      split_ifs <;> exact { h with }
    have ack (s : State) (h : MemoriesCanonical s) : MemoriesCanonical (ackCommand s) := by
      unfold ackCommand
      split <;> exact { h with }
    unfold transact regWrite
    simp only
    split
    · exact h
    · split
      · unfold ctrlWrite
        split_ifs
        · exact start s h
        · exact ack s h
        · exact h
      all_goals exact { h with }
  | _ => exact { h with }

theorem reset_memories (p : Params) (e : Nat) : MemoriesCanonical (State.resetOf p e) := by
  constructor <;> exact ⟨List.Pairwise.nil, by simp [State.resetOf]⟩

/-! ### UROM (10_state.md R37) -/

/-- The micro-ops of the five programs, at their indices; `none` at the filler. -/
def programOps : List (Option Instr) :=
  [some .check, some .copy, some .halt, none,
   some .check, some .grayf, some .halt, none,
   some .check, some .chkrad, some .blur2d, some .halt,
   some .check, some .thresh, some .halt, none,
   some .check, some .chkthr, some .luma, some .hblur, some .vblur, some .sobel, some .nms, some .dthr, some .hyst,
   some .expand, some .halt]

theorem decode_urom (u : Upc) : decode (urom u) =
    match programOps.getD u.toNat none with
    | some i => .op i
    | none => .illegal 0 := by
  revert u
  decide

/-- The sequencer finds a micro-op at every index that is no filler. -/
theorem programOps_some {u : Upc} (h : u.toNat ≤ 26 ∧ u.toNat ∉ [3, 7, 15]) :
    (programOps.getD u.toNat none).isSome = true := by
  obtain ⟨h1, h2⟩ := h
  revert u
  decide

end Sys2Proof.Machine
end

