-- ==== Sys2Proof/Laws/Invariant.lean ====
section
/-! SUPPORT. Small lemmas about the invariant: what it does not depend on, how an invocation starts, and the shapes of step inside
a program that keep it. -/

namespace Sys2Proof.Machine

/-- What the world does next is no part of the invariant. -/
theorem Invariant.withInputs {s : State} (h : Invariant s) (r : List Input) : Invariant { s with inputs := r } := by
  obtain ⟨h1, h2, h3, h4, h5, h6⟩ := h
  refine ⟨h1, { h2 with }, h3, fun hb => ?_, h5, h6⟩
  obtain ⟨a, b⟩ := h4 hb
  exact ⟨a, { b with }⟩

/-- Nor is the port's read data. -/
theorem Invariant.withAnswer {s : State} (h : Invariant s) (r : Option Word) : Invariant { s with answer := r } := by
  obtain ⟨h1, h2, h3, h4, h5, h6⟩ := h
  refine ⟨h1, { h2 with }, h3, fun hb => ?_, h5, h6⟩
  obtain ⟨a, b⟩ := h4 hb
  exact ⟨a, { b with }⟩

/-- Every cause has a code of R230. -/
theorem causeCode_range (c : Cause) : 1 ≤ (causeCode c).toNat ∧ (causeCode c).toNat ≤ 9 := by cases c <;> decide

/-- A trap keeps the invariant. -/
theorem Invariant.ofTrap {s : State} (hp : s.params.wf = true) (hm : MemoriesCanonical s) (c : Cause) (n : Nat) :
    Invariant (trap c n s) :=
  ⟨hp, { hm with }, fun h => by simp at h, fun h => by simp at h, fun h => by simp at h, fun _ => causeCode_range c⟩

/-- The entry table (30_encoding.md R98). -/
theorem entry_select : ∀ u : Nat, u ≤ 4 → programEntry (entry u).toNat = 4 * u ∧ (entry u).toNat ∈ EntryIndices := by
  intro u hu
  have : u = 0 ∨ u = 1 ∨ u = 2 ∨ u = 3 ∨ u = 4 := by omega
  rcases this with rfl | rfl | rfl | rfl | rfl <;> decide

/-- The start of an invocation: nothing but the selection has to hold. -/
theorem Progress.atEntry {s : State} (h4 : s.filterType.toNat ≤ 4) (h1 : s.enabled.toNat ≤ 1)
    (hp : programEntry s.upc.toNat = selectedEntry s) (hk : s.upc.toNat ∈ EntryIndices) (hd : DescriptorCleared s) :
    Progress s := by
  have hk3 := hk
  simp only [EntryIndices, List.mem_cons, List.not_mem_nil, or_false] at hk3
  exact {
    position := by simp; omega
    filterType := h4
    enabled := h1
    program := hp
    frame := fun h => absurd hk h
    radius := by omega
    thresholds := by omega
    cleared := fun _ => hd
    published := by intro h; simp at h; omega
    luma := by omega
    tmp := by omega
    blur := by omega
    mag := by omega
    dir := by omega
    sup := by omega
    edge := by omega }

/-- The indices of UROM that are no filler. -/
theorem upc_of_position {u : Upc} (h : u.toNat ≤ 26 ∧ u.toNat ∉ [3, 7, 15]) :
    u ∈ ([0, 1, 2, 4, 5, 6, 8, 9, 10, 11, 12, 13, 14, 16, 17, 18, 19, 20, 21, 22, 23, 24, 25, 26] : List Upc) := by
  obtain ⟨h1, h2⟩ := h
  revert u
  decide

/-- What CHECK establishes when no test fires (40_sequencer_control.md R113). -/
theorem frameChecked_of_none {s : State} (h : frameViolation s = none) : FrameChecked s := by
  unfold frameViolation at h
  split_ifs at h
  refine ⟨by omega, by omega, by unfold frameN; omega, by unfold frameN; omega, by omega, by omega, by omega⟩

/-- The length a publishing micro-op stores is the number itself. -/
theorem toReg_frame_bytes {s : State} (hw : s.params.wf = true) (hf : frameN s ≤ s.params.npixMax) :
    (toReg (4 * frameN s)).toNat = 4 * frameN s := by
  rw [toReg_of_lt (frame_bytes_lt hw hf), BitVec.toNat_ofNat, Nat.mod_eq_of_lt (frame_bytes_lt hw hf)]

/-- `upc + 1` does not wrap inside the programs. -/
theorem upc_succ {u : Upc} (h : u.toNat ≤ 26) : (u + 1).toNat = u.toNat + 1 := by
  rw [BitVec.toNat_add]; simp; omega

/-- A micro-op inside a program that writes at most planes keeps the invariant, given what the next one relies on. -/
theorem Invariant.midStep {s t : State} (h : Invariant s) (hb : s.phase = .busy) (hm : MemoriesCanonical t)
    (hs : t = { s with
      upc := s.upc + 1, luma := t.luma, tmp := t.tmp, blur := t.blur, mag := t.mag, dir := t.dir, sup := t.sup, edge := t.edge })
    (hu : s.upc.toNat ∈ [0, 4, 8, 12, 16, 9, 17, 18, 19, 20, 21, 22, 23, 24])
    (hf : FrameChecked s)
    (hr : s.upc.toNat = 9 → s.blurRadius.toNat ≤ s.params.rmax)
    (hth : s.upc.toNat = 17 → s.lowThreshold.toNat ≤ s.highThreshold.toNat)
    (luma : s.upc.toNat = 18 → t.luma.written (frameN s))
    (tmp : s.upc.toNat = 19 → t.tmp.written (frameN s))
    (blur : s.upc.toNat = 20 → t.blur.written (frameN s))
    (mag : s.upc.toNat = 21 → t.mag.written (frameN s))
    (dir : s.upc.toNat = 21 → t.dir.written (frameN s))
    (sup : s.upc.toNat = 22 → t.sup.written (frameN s))
    (edge : s.upc.toNat = 23 ∨ s.upc.toNat = 24 → t.edge.written (frameN s)) : Invariant t := by
  obtain ⟨hnt, hp⟩ := h.busy hb
  have h1 := upc_succ hp.position.1
  have hp1 : t.params = s.params := by rw [hs]
  have hp2 : t.phase = .busy := by rw [hs]; exact hb
  have hp3 : t.upc.toNat = s.upc.toNat + 1 := by rw [hs]; exact h1
  have hp4 : frameN t = frameN s := by rw [hs]; rfl
  simp only [List.mem_cons, List.not_mem_nil, or_false] at hu
  have cl := hp.cleared (by simp; omega)
  refine ⟨by rw [hp1]; exact h.params, hm, fun h => ?_, fun _ => ⟨by rw [hs]; exact hnt, ?_⟩, fun h => ?_, fun h => ?_⟩
  case refine_2 =>
    refine {
      position := by simp; omega
      filterType := by rw [hs]; exact hp.filterType
      enabled := by rw [hs]; exact hp.enabled
      program := ?_
      frame := fun _ => by rw [hs]; exact hf
      radius := fun h => ?_
      thresholds := fun h => ?_
      cleared := fun _ => by rw [hs]; exact cl
      published := fun h => ?_
      luma := fun h => ?_
      tmp := fun h => ?_
      blur := fun h => ?_
      mag := fun h => ?_
      dir := fun h => ?_
      sup := fun h => ?_
      edge := fun h => ?_ }
    · rw [hp3, show selectedEntry t = selectedEntry s by rw [hs]; rfl, ← hp.program]
      unfold programEntry
      split <;> split <;> omega
    · rw [hs]; exact hr (by omega)
    · have hx : s.lowThreshold.toNat ≤ s.highThreshold.toNat := by
        by_cases hx : s.upc.toNat = 17
        · exact hth hx
        · exact hp.thresholds (by omega)
      rw [hs]; exact hx
    · simp at h; omega
    all_goals (rw [hp4])
    · exact luma (by omega)
    · exact tmp (by omega)
    · exact blur (by omega)
    · exact mag (by omega)
    · exact dir (by omega)
    · exact sup (by omega)
    · exact edge (by omega)
  all_goals rw [hp2] at h; cases h

/-- A publishing micro-op, which a HALT follows, keeps the invariant. -/
theorem Invariant.publishStep {s t : State} (h : Invariant s) (hb : s.phase = .busy) (hf : FrameChecked s) (f : Nat → Byte)
    (ht : t = advance (publish f s)) (hu : s.upc.toNat ∈ [1, 5, 10, 13, 25]) : Invariant t := by
  obtain ⟨hnt, hp⟩ := h.busy hb
  have h1 := upc_succ hp.position.1
  have hpw := h.params
  subst ht
  simp only [List.mem_cons, List.not_mem_nil, or_false] at hu
  refine ⟨h.params, publish_memories h.memories hf.2.2.1 f, fun h => ?_, fun _ => ⟨hnt, ?_⟩, fun h => ?_, fun h => ?_⟩
  case refine_2 =>
    refine {
      position := by simp; omega
      filterType := hp.filterType
      enabled := hp.enabled
      program := ?_
      frame := fun _ => hf
      radius := fun h => ?_
      thresholds := fun h => ?_
      cleared := fun h => ?_
      published := fun h => ?_
      luma := fun h => ?_
      tmp := fun h => ?_
      blur := fun h => ?_
      mag := fun h => ?_
      dir := fun h => ?_
      sup := fun h => ?_
      edge := fun h => ?_ }
    all_goals try simp only [advance_upc, publish_upc, h1] at h
    · rw [show selectedEntry (advance (publish f s)) = selectedEntry s from rfl, ← hp.program]
      simp only [advance_upc, publish_upc, h1]
      unfold programEntry
      split <;> split <;> omega
    · omega
    · exact hp.thresholds (by omega)
    · simp at h; omega
    · exact ⟨rfl, rfl, toReg_frame_bytes hpw hf.2.2.1, Memory.written_fill _ _ _⟩
    all_goals omega
  all_goals simp [hb] at h

end Sys2Proof.Machine
end

