-- ==== Sys2Proof/Laws/PerInstr.lean ====
section
/-! SUPPORT. Statements made instruction by instruction. -/

/-- A micro-op is well-formed, and both the decoder and its reading of the opcode table's numbering give it back from its word
(30_encoding.md R93, R99). -/
def Sys2Proof.Laws.RoundTrip.Statement (i : Sys2Proof.Instr) : Prop :=
  i.wf = true ∧ Sys2Proof.decode (Sys2Proof.encode i) = .op i ∧
    Sys2Proof.decodeTableWord 8 (Sys2Proof.encode i).toNat = some i

theorem Sys2Proof.Laws.RoundTrip.halt : Sys2Proof.Laws.RoundTrip.Statement .halt := by
  unfold Sys2Proof.Laws.RoundTrip.Statement; decide

theorem Sys2Proof.Laws.RoundTrip.check : Sys2Proof.Laws.RoundTrip.Statement .check := by
  unfold Sys2Proof.Laws.RoundTrip.Statement; decide

theorem Sys2Proof.Laws.RoundTrip.chkrad : Sys2Proof.Laws.RoundTrip.Statement .chkrad := by
  unfold Sys2Proof.Laws.RoundTrip.Statement; decide

theorem Sys2Proof.Laws.RoundTrip.chkthr : Sys2Proof.Laws.RoundTrip.Statement .chkthr := by
  unfold Sys2Proof.Laws.RoundTrip.Statement; decide

theorem Sys2Proof.Laws.RoundTrip.copy : Sys2Proof.Laws.RoundTrip.Statement .copy := by
  unfold Sys2Proof.Laws.RoundTrip.Statement; decide

theorem Sys2Proof.Laws.RoundTrip.grayf : Sys2Proof.Laws.RoundTrip.Statement .grayf := by
  unfold Sys2Proof.Laws.RoundTrip.Statement; decide

theorem Sys2Proof.Laws.RoundTrip.thresh : Sys2Proof.Laws.RoundTrip.Statement .thresh := by
  unfold Sys2Proof.Laws.RoundTrip.Statement; decide

theorem Sys2Proof.Laws.RoundTrip.luma : Sys2Proof.Laws.RoundTrip.Statement .luma := by
  unfold Sys2Proof.Laws.RoundTrip.Statement; decide

theorem Sys2Proof.Laws.RoundTrip.expand : Sys2Proof.Laws.RoundTrip.Statement .expand := by
  unfold Sys2Proof.Laws.RoundTrip.Statement; decide

theorem Sys2Proof.Laws.RoundTrip.blur2d : Sys2Proof.Laws.RoundTrip.Statement .blur2d := by
  unfold Sys2Proof.Laws.RoundTrip.Statement; decide

theorem Sys2Proof.Laws.RoundTrip.hblur : Sys2Proof.Laws.RoundTrip.Statement .hblur := by
  unfold Sys2Proof.Laws.RoundTrip.Statement; decide

theorem Sys2Proof.Laws.RoundTrip.vblur : Sys2Proof.Laws.RoundTrip.Statement .vblur := by
  unfold Sys2Proof.Laws.RoundTrip.Statement; decide

theorem Sys2Proof.Laws.RoundTrip.sobel : Sys2Proof.Laws.RoundTrip.Statement .sobel := by
  unfold Sys2Proof.Laws.RoundTrip.Statement; decide

theorem Sys2Proof.Laws.RoundTrip.nms : Sys2Proof.Laws.RoundTrip.Statement .nms := by
  unfold Sys2Proof.Laws.RoundTrip.Statement; decide

theorem Sys2Proof.Laws.RoundTrip.dthr : Sys2Proof.Laws.RoundTrip.Statement .dthr := by
  unfold Sys2Proof.Laws.RoundTrip.Statement; decide

theorem Sys2Proof.Laws.RoundTrip.hyst : Sys2Proof.Laws.RoundTrip.Statement .hyst := by
  unfold Sys2Proof.Laws.RoundTrip.Statement; decide
end

