-- ==== Sys2Proof/Laws/Stages.lean ====
section
/-! SUPPORT. What each stage of the edge pipeline leaves at a pixel, in the coordinates of the frame (30_encoding.md R95). -/

namespace Sys2Proof.Machine

variable {s t : State} {x y : Nat}

theorem elementAt_luma (h : exec .luma s = .next t) (hx : x < frameW s) (hy : y < frameH s) :
    elementAt t .luma x y = lum (px s x y 0) (px s x y 1) (px s x y 2) := by
  rw [exec_luma (exec_fits (by simp [planeWriters]) h)] at h
  injection h with h
  subst h
  refine (planeAt_luma (read_fill_index s.luma _ hx hy)).trans (byteOf_toNat ?_)
  exact lum_le (srcAt_le _ _) (srcAt_le _ _) (srcAt_le _ _)

theorem elementAt_tmp (h : exec .hblur s = .next t) (hx : x < frameW s) (hy : y < frameH s) :
    elementAt t .tmp x y = sevenTap fun k => elementAt s .luma (nearestIn (frameW s) (x + k)) y := by
  rw [exec_hblur (exec_fits (by simp [planeWriters]) h)] at h
  injection h with h
  subst h
  refine (planeAt_tmp (read_fill_index s.tmp _ hx hy)).trans ?_
  rw [columnOf_index hx, rowOf_index hx, hblurAt, roundAcc_tapSum, byteOf_toNat (sevenTap_le _)]
  simp only [elementClamped, clampc_eq_nearestIn, nearestIn_self hy]

theorem elementAt_blur (h : exec .vblur s = .next t) (hx : x < frameW s) (hy : y < frameH s) :
    elementAt t .blur x y = sevenTap fun k => elementAt s .tmp x (nearestIn (frameH s) (y + k)) := by
  rw [exec_vblur (exec_fits (by simp [planeWriters]) h)] at h
  injection h with h
  subst h
  refine (planeAt_blur (read_fill_index s.blur _ hx hy)).trans ?_
  rw [columnOf_index hx, rowOf_index hx, vblurAt, roundAcc_tapSum, byteOf_toNat (sevenTap_le _)]
  simp only [elementClamped, clampc_eq_nearestIn, nearestIn_self hx]

theorem elementAt_mag (h : exec .sobel s = .next t) (hx : x < frameW s) (hy : y < frameH s) :
    elementAt t .mag x y = sobelMag s x y := by
  rw [exec_sobel (exec_fits (by simp [planeWriters]) h)] at h
  injection h with h
  subst h
  refine (planeAt_mag (read_fill_index s.mag _ hx hy)).trans ?_
  rw [columnOf_index hx, rowOf_index hx]
  refine byteOf_toNat ?_
  unfold sobelMag
  split
  · exact magnitude_le _ _
  · omega

theorem elementAt_dir (h : exec .sobel s = .next t) (hx : x < frameW s) (hy : y < frameH s) :
    elementAt t .dir x y = sobelDir s x y := by
  rw [exec_sobel (exec_fits (by simp [planeWriters]) h)] at h
  injection h with h
  subst h
  refine (planeAt_dir (read_fill_index s.dir _ hx hy)).trans ?_
  rw [columnOf_index hx, rowOf_index hx, BitVec.toNat_ofNat]
  refine Nat.mod_eq_of_lt ?_
  unfold sobelDir
  split
  · exact sector_lt _ _
  · omega

theorem nmsAt_le (s : State) (x y : Nat) : nmsAt s x y ≤ elementAt s .mag x y := by
  unfold nmsAt
  simp only
  split_ifs <;> omega

theorem elementAt_mag_le (s : State) (x y : Nat) : elementAt s .mag x y ≤ 255 :=
  Nat.le_of_lt_succ (s.mag.readOr (Config.unwritten s.epoch (.plane .mag)) (indexOf (frameW s) x y)).isLt

theorem elementAt_sup (h : exec .nms s = .next t) (hx : x < frameW s) (hy : y < frameH s) :
    elementAt t .sup x y = nmsAt s x y := by
  rw [exec_nms (exec_fits (by simp [planeWriters]) h)] at h
  injection h with h
  subst h
  refine (planeAt_sup (read_fill_index s.sup _ hx hy)).trans ?_
  rw [columnOf_index hx, rowOf_index hx]
  exact byteOf_toNat (Nat.le_trans (nmsAt_le s x y) (elementAt_mag_le s x y))

theorem markOf_le (lo hi v : Nat) : markOf lo hi v ≤ 255 := by
  unfold markOf
  split_ifs <;> omega

theorem elementAt_edge_dthr (h : exec .dthr s = .next t) (hx : x < frameW s) (hy : y < frameH s) :
    elementAt t .edge x y = markOf s.lowThreshold.toNat s.highThreshold.toNat (elementAt s .sup x y) := by
  rw [exec_dthr (exec_fits (by simp [planeWriters]) h)] at h
  injection h with h
  subst h
  exact (planeAt_edge (read_fill_index s.edge _ hx hy)).trans (byteOf_toNat (markOf_le _ _ _))

theorem elementAt_edge_hyst (h : exec .hyst s = .next t) (hx : x < frameW s) :
    elementAt t .edge x y =
      if isInterior (frameW s) (frameH s) x y then settledMark (elementAt s .edge) (elementAt t .edge) x y
      else elementAt s .edge x y := by
  rw [exec_hyst (exec_fits (by simp [planeWriters]) h)] at h
  injection h with h
  subst h
  split
  · exact markAt_hystPass _ _ _ ‹_›
  · refine markAt_congr _ _ (hystPass_read _ _ fun a b hab he => ?_)
    obtain ⟨rfl, rfl⟩ := index_inj hx (by have := hab.2.1; omega) he
    exact absurd hab ‹_›

end Sys2Proof.Machine
end

