-- ==== Sys2Proof/Tests/Slice0.lean ====
section
/-! SUPPORT. The model's own tests: well-formedness, decoding, one micro-op or one transaction at a time against the vectors of
95_test_vectors.md, and for every statement with hypotheses a state and operands that meet them. Every expected value is the
spec's. -/

open Sys2Proof Sys2Proof.Machine

namespace Sys2Proof.Tests

/-! ### Small states -/

/-- The instance of 95_test_vectors.md: `NPIX_MAX = 72`, `RMAX = 3`. -/
def small : Params := { npixMax := 72, rmax := 3 }

/-- A memory that holds a list from index 0 on. -/
def memOf {v : Nat} (l : List (BitVec v)) : Memory v := l.zipIdx.map fun c => (c.2, c.1)

/-- BUSY on a `w` by `h` frame, options at their reset values, nothing written. -/
def busyOn (w h : Nat) : State := { State.resetOf small 0 with
  phase := .busy, srcWidth := BitVec.ofNat 32 w, srcHeight := BitVec.ofNat 32 h, srcLen := BitVec.ofNat 32 (4 * w * h) }

/-- The state a micro-op answers, if it answers one. -/
def after (i : Instr) (s : State) : Option State :=
  match exec i s with
  | .next t => some t
  | .fault _ => none
  | .refused _ => none

/-- The state a step answers, if it answers one. -/
def stepped (s : State) : Option State :=
  match step s with
  | .next t => some t
  | .fault _ => none
  | .refused _ => none

/-- The trap record and the position after a micro-op. -/
def record (i : Instr) (s : State) : Option (Phase × Word × Word × Upc) :=
  (after i s).map fun t => (t.phase, t.errCode, t.errInfo, t.upc)

/-! ### Well-formedness: an ill-formed instance for each check; no micro-op is ill-formed (30_encoding.md R92) -/

theorem test_params_wf : small.wf = true := by decide
theorem test_params_wf_largest : Config.instanceParams.wf = true := by decide
theorem test_params_refuses_empty_planes : Params.wf { npixMax := 0, rmax := 3 } = false := by decide
theorem test_params_refuses_2_to_32_bytes : Params.wf { npixMax := 2 ^ 30, rmax := 3 } = false := by decide
theorem test_params_weights_checked_per_radius : (List.range 4).all (fun r => decide (coefRest r ≤ 65536)) = true := by decide
theorem test_instr_wf : Instr.hyst.wf = true := by decide

/-! ### Decoding, group and function bit by bit (30_encoding.md R91, R93) -/

theorem test_decode_control : decode 0b00010000 = .op .halt := by decide
theorem test_decode_checks : decode 0b00100001 = .op .chkrad := by decide
theorem test_decode_pointwise : decode 0b00110100 = .op .expand := by decide
theorem test_decode_convolution : decode 0b01000010 = .op .vblur := by decide
theorem test_decode_gradient : decode 0b01010001 = .op .nms := by decide
theorem test_decode_marking : decode 0b01100001 = .op .hyst := by decide
/-- V-E7. -/
theorem test_decode_illegal :
    ([0x00, 0x0F, 0x11, 0x1F, 0x23, 0x35, 0x43, 0x52, 0x62, 0x70, 0x80, 0xFF] : List Byte).all
      (fun w => decode w == .illegal w) = true := by decide
/-- V-E8. -/
theorem test_decode_count :
    ((List.range 256).filter fun w => (decodeTableWord 8 w).isSome).length = 16 := by decide +kernel

/-! ### Control and checks (V-C rows) -/

theorem test_halt : record .halt { busyOn 1 1 with upc := 2 } = some (.done, 0, 0, 2) := by decide
/-- V-C8: `W * H = 2^32` does not wrap to 0. -/
theorem test_check_no_wrap : record .check { busyOn 65536 65536 with srcLen := 0 } = some (.error, 4, 0, 0) := by decide
/-- V-C12. -/
theorem test_check_length : record .check { busyOn 2 2 with srcLen := 17 } = some (.error, 5, 17, 0) := by decide
/-- V-C18. -/
theorem test_chkrad_rejects : record .chkrad { busyOn 3 1 with blurRadius := 4, upc := 9 } = some (.error, 6, 4, 9) := by decide
theorem test_chkrad_passes : record .chkrad { busyOn 3 1 with blurRadius := 3, upc := 9 } = some (.busy, 0, 0, 10) := by decide
/-- V-C21. -/
theorem test_chkthr_rejects :
    record .chkthr { busyOn 3 3 with lowThreshold := 150, highThreshold := 50, upc := 17 } = some (.error, 7, 12950, 17) := by
  decide
/-- V-C22. -/
theorem test_chkthr_passes :
    record .chkthr { busyOn 3 3 with lowThreshold := 100, highThreshold := 100, upc := 17 } = some (.busy, 0, 0, 18) := by
  decide

/-! ### Pointwise (V-P rows) -/

/-- The three pixels of V-P4. -/
def threePixels : State := { busyOn 3 1 with src := memOf [100, 150, 200, 255, 128, 128, 128, 7, 129, 129, 129, 0] }

/-- V-P9. -/
theorem test_copy : (after .copy { busyOn 1 1 with src := memOf [1, 2, 3, 4] }).map (fun t => (t.dst, t.dstLen)) =
    some (memOf [1, 2, 3, 4], 4) := by decide
/-- V-P5, S8. -/
theorem test_grayf : (after .grayf threePixels).map (·.dst) =
    some (memOf [141, 141, 141, 255, 128, 128, 128, 7, 129, 129, 129, 0]) := by decide
/-- V-P4: equality is black, alpha is kept. -/
theorem test_thresh : (after .thresh threePixels).map (·.dst) =
    some (memOf [255, 255, 255, 255, 0, 0, 0, 7, 255, 255, 255, 0]) := by decide
/-- V-P10: nothing is above 0 in a black pixel. -/
theorem test_thresh_zero :
    (after .thresh { busyOn 1 1 with src := memOf [0, 0, 0, 0], thresholdValue := 0 }).map (·.dst) =
      some (memOf [0, 0, 0, 0]) := by decide
/-- V-P7. -/
theorem test_luma : (after .luma threePixels).map (·.luma) = some (memOf [141, 128, 129]) := by decide
/-- V-P2: ties go up. -/
theorem test_luma_ties : [lum 0 0 250, lum 0 4 168, lum 0 8 86, lum 0 12 4] = [29, 22, 15, 8] := by decide
/-- V-P8. -/
theorem test_expand : (after .expand { busyOn 3 1 with edge := memOf [0, 255, 128] }).map (·.dst) =
    some (memOf [0, 0, 0, 255, 255, 255, 255, 255, 128, 128, 128, 255]) := by decide

/-! ### Gaussian (V-G rows) -/

/-- V-G12: even the alpha channel is convolved. -/
theorem test_blur2d :
    (after .blur2d { busyOn 3 1 with
      src := memOf [0, 0, 0, 255, 255, 255, 255, 255, 0, 0, 0, 255], blurRadius := 1 }).map (·.dst) =
      some (memOf [3, 3, 3, 255, 249, 249, 249, 255, 3, 3, 3, 255]) := by decide +kernel
/-- V-G13: the kernel is wider than the image. -/
theorem test_blur2d_wide :
    (after .blur2d { busyOn 3 1 with
      src := memOf [0, 0, 0, 255, 255, 255, 255, 255, 0, 0, 0, 255], blurRadius := 2 }).map (·.dst) =
      some (memOf [50, 50, 50, 255, 153, 153, 153, 255, 50, 50, 50, 255]) := by decide +kernel
/-- V-G7. -/
theorem test_hblur : (after .hblur { busyOn 3 1 with luma := memOf [10, 20, 30] }).map (·.tmp) =
    some (memOf [14, 20, 26]) := by decide +kernel
/-- V-G3. -/
theorem test_hblur_left_edge :
    (after .hblur { busyOn 9 1 with luma := memOf [255, 0, 0, 0, 0, 0, 0, 0, 0] }).map (·.tmp) =
      some (memOf [178, 77, 15, 1, 0, 0, 0, 0, 0]) := by decide +kernel
/-- V-G7b. -/
theorem test_vblur : (after .vblur { busyOn 1 5 with tmp := memOf [0, 0, 255, 0, 0] }).map (·.blur) =
    some (memOf [14, 62, 102, 62, 14]) := by decide +kernel

/-! ### Gradient and suppression (V-S and V-N rows) -/

/-- V-S1. -/
theorem test_sobel :
    (after .sobel { busyOn 3 3 with blur := memOf [10, 20, 30, 40, 50, 60, 70, 80, 90] }).map (fun t => (t.mag, t.dir)) =
      some (memOf [0, 0, 0, 0, 253, 0, 0, 0, 0], memOf [0, 0, 0, 0, 2, 0, 0, 0, 0]) := by decide +kernel
/-- V-S6: a bright lower-right corner. -/
theorem test_sobel_corner :
    (after .sobel { busyOn 3 3 with blur := memOf [0, 0, 0, 0, 0, 10, 0, 10, 10] }).map (fun t => (t.mag, t.dir)) =
      some (memOf [0, 0, 0, 0, 42, 0, 0, 0, 0], memOf [0, 0, 0, 0, 1, 0, 0, 0, 0]) := by decide +kernel
/-- V-S9, V-S10, V-S12: both sides of each boundary. -/
theorem test_sector :
    [sector 5 2, sector 12 5, sector 29 12, sector 70 29, sector 2 5, sector 5 12, sector (-5) 2, sector (-5) (-3),
      sector (-1) 3, sector (-1) 2] = [0, 1, 0, 1, 2, 1, 0, 3, 2, 3] := by decide
/-- V-S14, V-S15. -/
theorem test_rsqrt : [0, 1, 2, 3, 6, 7, 12, 13, 20, 21, 64770, 64771, 65025, 2080800].map rsqrt =
    [0, 1, 1, 2, 2, 3, 3, 4, 4, 5, 254, 255, 255, 1442] := by decide +kernel
/-- The planes of V-N4 and V-N5. -/
def fivePeaks (d : Sector) : State := { busyOn 5 5 with
  mag := memOf [0, 0, 0, 0, 0, 0, 70, 0, 60, 0, 0, 0, 40, 0, 0, 0, 30, 0, 10, 0, 0, 0, 0, 0, 0]
  dir := memOf (List.replicate 25 d) }
/-- V-N4. -/
theorem test_nms_rising : (after .nms (fivePeaks 1)).map (·.sup) =
    some (memOf [0, 0, 0, 0, 0, 0, 70, 0, 60, 0, 0, 0, 0, 0, 0, 0, 0, 0, 10, 0, 0, 0, 0, 0, 0]) := by decide +kernel
/-- V-N5. -/
theorem test_nms_falling : (after .nms (fivePeaks 3)).map (·.sup) =
    some (memOf [0, 0, 0, 0, 0, 0, 70, 0, 60, 0, 0, 0, 0, 0, 0, 0, 30, 0, 0, 0, 0, 0, 0, 0, 0]) := by decide +kernel

/-! ### Edge marking (V-H rows) -/

/-- V-H1. -/
theorem test_dthr : (after .dthr { busyOn 6 1 with sup := memOf [49, 50, 149, 150, 255, 0] }).map (·.edge) =
    some (memOf [0, 128, 128, 255, 255, 0]) := by decide
/-- V-H2: no weak class. -/
theorem test_dthr_equal_thresholds :
    (after .dthr { busyOn 3 1 with sup := memOf [99, 100, 101], lowThreshold := 100, highThreshold := 100 }).map (·.edge) =
      some (memOf [0, 255, 255]) := by decide
/-- V-H7b, second half: only the link next to the strong element behind it in raster order. -/
theorem test_hyst_against_raster :
    (after .hyst { busyOn 5 5 with
      edge := memOf [0, 0, 0, 0, 0, 0, 128, 0, 0, 0, 0, 0, 128, 0, 0, 0, 0, 0, 255, 0, 0, 0, 0, 0, 0] }).map (·.edge) =
      some (memOf [0, 0, 0, 0, 0, 0, 0, 0, 0, 0, 0, 0, 255, 0, 0, 0, 0, 0, 255, 0, 0, 0, 0, 0, 0]) := by decide +kernel
/-- V-H7b, first half: the whole chain. -/
theorem test_hyst_with_raster :
    (after .hyst { busyOn 5 5 with
      edge := memOf [0, 0, 0, 0, 0, 0, 255, 0, 0, 0, 0, 0, 128, 0, 0, 0, 0, 0, 128, 0, 0, 0, 0, 0, 0] }).map (·.edge) =
      some (memOf [0, 0, 0, 0, 0, 0, 255, 0, 0, 0, 0, 0, 255, 0, 0, 0, 0, 0, 255, 0, 0, 0, 0, 0, 0]) := by decide +kernel

/-! ### Host port, traps, reset (V-C, V-I rows and P7) -/

/-- V-I1. -/
theorem test_reset_registers :
    [1, 2, 4, 5, 6, 7, 8, 9, 10, 11, 16, 0, 17, 31].map (regRead State.reset) =
      [0, 0, 0, 0, 0, 50, 150, 2, 128, 0, 0, 0, 0, 0] := by decide
/-- V-C1. -/
theorem test_start_entries :
    (List.range 5).map (fun f =>
      let t := startCommand { State.reset with enabled := 1, filterType := BitVec.ofNat 32 f, upc := 0x0E }
      (t.upc, statusWord t)) = [(0x00, 1), (0x04, 1), (0x08, 1), (0x0C, 1), (0x10, 1)] := by decide
/-- V-C3, V-C5. -/
theorem test_start_rejects :
    ([(0, 5), (2, 4), (9, 7)] : List (Word × Word)).map (fun c =>
      let t := startCommand { State.reset with enabled := c.1, filterType := c.2, upc := 0x0E }
      (t.errCode, t.errInfo, statusWord t, t.upc)) = [(1, 5, 3, 0x0E), (2, 6, 3, 0x0E), (1, 7, 3, 0x0E)] := by decide
/-- V-I4: START wins over ACK. -/
theorem test_ctrl_both_bits : (transact (.wr 0 3) State.reset).phase = .busy := by decide
/-- V-I5. -/
theorem test_ctrl_other_bits : transact (.wr 0 0xFFFFFFFC) State.reset = State.reset := by decide
/-- V-I6. -/
theorem test_ack : ((ackCommand { busyOn 3 1 with phase := .done, dstLen := 12, upc := 14 }).phase,
    (ackCommand { busyOn 3 1 with phase := .done, dstLen := 12, upc := 14 }).dstLen,
    (ackCommand { busyOn 3 1 with phase := .done, dstLen := 12, upc := 14 }).upc) = (.idle, 0, 14) := by decide
/-- V-I8. -/
theorem test_busy_ignores_writes : transact (.wr 10 1) (busyOn 3 1) = busyOn 3 1 := by decide
/-- V-I10. -/
theorem test_dst_window :
    [11, 12].map (dstRead { busyOn 3 1 with phase := .done, dstLen := 12, dst := memOf [0, 0, 0, 0, 0, 0, 0, 0, 0, 0, 0, 9, 8] }) =
      [9, 0] := by decide
/-- P7, step 4. -/
theorem test_env_fail :
    (stepped { busyOn 8 5 with upc := 0x13, inputs := [.tick true] }).map
      (fun t => (statusWord t, t.errCode, t.errInfo, t.upc)) = some (3, 8, 0, 0x13) := by decide
/-- V-C25. -/
theorem test_illegal_word :
    (match execWord 0x00 (busyOn 8 5) with
      | .next t => some (t.phase, t.errCode, t.errInfo, t.upc)
      | .fault _ => none
      | .refused _ => none) = some (.error, 9, 0, 0) := by decide
/-- V-I12: `rst` while BUSY; the outside world goes on. -/
theorem test_rst :
    (stepped { busyOn 8 5 with upc := 0x13, inputs := [.rst, .tick true] }).map
      (fun t => (t.phase, t.errCode, t.highThreshold, t.upc)) = some (.idle, 0, 150, 0) := by decide
/-- The probe: every row of the opcode table runs as the first micro-op. -/
theorem test_fetch_word :
    (List.range 256).all (fun w => match decodeTableWord 8 w with
      | some i => fetch (State.reset.withFetchWord 8 w) == encode i && (State.reset.withFetchWord 8 w).phase == .busy
      | none => true) = true := by decide +kernel

/-! ### Witnesses: states and operands that meet the hypotheses of each statement -/

/-- An idle core with a one-pixel frame loaded and the pass-through selected. -/
def loaded : State := { State.resetOf small 0 with
  srcWidth := 1, srcHeight := 1, srcLen := 4, src := memOf [1, 2, 3, 4] }

/-- The same, about to be started. -/
def starting : State := { loaded with inputs := [.host (.wr 0 1)] }

/-- A frame that fills the planes. -/
def fullFrame : State := busyOn 9 8

/-- A frame of no pixels. -/
def emptyFrame : State := busyOn 0 8

theorem loaded_invariant : Invariant loaded where
  params := by decide
  memories := by constructor <;> decide
  idle := by decide
  busy := fun h => absurd h (by decide)
  done := fun h => absurd h (by decide)
  error := fun h => absurd h (by decide)

theorem starting_invariant : Invariant starting where
  params := by decide
  memories := by constructor <;> decide
  idle := by decide
  busy := fun h => absurd h (by decide)
  done := fun h => absurd h (by decide)
  error := fun h => absurd h (by decide)

/-- BUSY at the entry of the edge program, the longest. -/
def edgeStarted : State := startCommand { loaded with filterType := 4, enabled := 1 }

theorem edgeStarted_invariant : Invariant edgeStarted where
  params := by decide
  memories := by constructor <;> decide
  idle := fun h => absurd h (by decide)
  busy := fun _ => ⟨by decide, by constructor <;> decide⟩
  done := fun h => absurd h (by decide)
  error := fun h => absurd h (by decide)

/-- DONE with the one pixel of `loaded` published. -/
def finished : State := { loaded with
  phase := .done, upc := 2, dstWidth := 1, dstHeight := 1, dstLen := 4, dst := memOf [1, 2, 3, 4] }

theorem finished_invariant : Invariant finished where
  params := by decide
  memories := by constructor <;> decide
  idle := fun h => absurd h (by decide)
  busy := fun h => absurd h (by decide)
  done := by decide
  error := fun h => absurd h (by decide)

/-- The premises of the datapath statements, at a frame that fills the planes and at an empty one. -/
abbrev FitsAtBothEnds (radius : Word) : Prop :=
  (fullFrame.params.wf = true ∧ frameN fullFrame = fullFrame.params.npixMax ∧ radius.toNat ≤ fullFrame.params.rmax) ∧
  (emptyFrame.params.wf = true ∧ frameN emptyFrame = 0 ∧ frameN emptyFrame ≤ emptyFrame.params.npixMax)

theorem witness_DecoderTotalAndInvertsEncoder :
    Instr.wf .halt = true ∧ (∃ w : Byte, w = encode .hyst) ∧ ∀ i, (0x62 : Byte) ≠ encode i :=
  ⟨by decide, ⟨_, rfl⟩, fun i => by cases i <;> decide⟩

theorem witness_IllegalWordTraps :
    (∀ i, (0x00 : Byte) ≠ encode i) ∧ (∀ i, (0xFF : Byte) ≠ encode i) ∧ Invariant edgeStarted ∧ edgeStarted.phase = .busy :=
  ⟨fun i => by cases i <;> decide, fun i => by cases i <;> decide, edgeStarted_invariant, by decide⟩

theorem witness_StepRunsDecodedInstruction :
    (edgeStarted.phase = .busy ∧ decode (fetch edgeStarted) = .op .check ∧ edgeStarted.inputs = []) ∧
    ({ edgeStarted with upc := 0x1A, inputs := [.tick false] }.phase = .busy ∧
      decode (fetch { edgeStarted with upc := 0x1A, inputs := [.tick false] }) = .op .halt) := by decide

theorem witness_EnvFailureTrapsBeforeFetch :
    { edgeStarted with inputs := [.tick true] }.phase = .busy ∧
      { edgeStarted with inputs := [.tick true] }.inputs = .tick true :: [] := by decide

theorem witness_SequencerIdleOutsideBusy :
    (loaded.phase ≠ .busy ∧ loaded.inputs = []) ∧
    ({ finished with inputs := [.tick true] }.phase ≠ .busy ∧
      { finished with inputs := [.tick true] }.inputs = .tick true :: []) := by decide

theorem witness_StepPerformsTransactionsAndReset :
    starting.inputs = .host (.wr 0 1) :: [] ∧ { loaded with inputs := [.rst] }.inputs = .rst :: [] := by decide

theorem witness_TrapEntryWritesThreeRegisters : (0 : Nat) < 2 ^ 32 ∧ (2 ^ 32 - 1 : Nat) < 2 ^ 32 := by decide

theorem witness_CheckPassesValidFrame : FrameChecked loaded ∧ FrameChecked fullFrame := by decide

theorem witness_ChkradBoundsRadius :
    ({ loaded with blurRadius := 3 }.blurRadius.toNat ≤ { loaded with blurRadius := 3 }.params.rmax) ∧
    ({ loaded with blurRadius := 4 }.params.rmax < { loaded with blurRadius := 4 }.blurRadius.toNat) := by decide

theorem witness_ChkthrOrdersThresholds :
    ((255 : Word).toNat ≤ 255 ∧ (255 : Word).toNat ≤ (255 : Word).toNat) ∧
    ((254 : Word).toNat ≤ 255 ∧ (254 : Word).toNat < (255 : Word).toNat) := by decide

theorem witness_CopyCopiesEveryByte : FitsAtBothEnds 0 := by decide
theorem witness_GrayfWritesLuminance : FitsAtBothEnds 0 := by decide
theorem witness_ThreshBinarizes : FitsAtBothEnds 0 := by decide
theorem witness_LumaWritesLuminancePlane : FitsAtBothEnds 0 := by decide
theorem witness_ExpandBroadcastsMarks : FitsAtBothEnds 0 := by decide
theorem witness_GrayscaleIdempotent : FitsAtBothEnds 0 := by decide
theorem witness_ThresholdMonotone : FitsAtBothEnds 0 ∧ (128 : Word).toNat ≤ (128 : Word).toNat := by decide
theorem witness_Blur2dConvolvesEveryChannel : FitsAtBothEnds 0 ∧ FitsAtBothEnds 3 := by decide
theorem witness_HblurConvolvesRows : FitsAtBothEnds 0 := by decide
theorem witness_VblurConvolvesColumns : FitsAtBothEnds 0 := by decide
theorem witness_SobelComputesGradientField : FitsAtBothEnds 0 ∧ isInterior 9 8 1 1 ∧ ¬isInterior 9 8 8 1 := by decide
theorem witness_DthrMarksEveryPixel : FitsAtBothEnds 0 := by decide
theorem witness_HystIsOneRasterPass : FitsAtBothEnds 0 ∧ isInterior 9 8 7 6 := by decide
theorem witness_SuppressionOnlyZeroes : FitsAtBothEnds 0 := by decide
theorem witness_HystLeavesBinaryInterior : FitsAtBothEnds 0 := by decide

/-- Both clauses: the kept centre of V-N4's plane, and an element of its border. -/
theorem witness_NmsKeepsLocalMaxima :
    frameN (fivePeaks 0) ≤ (fivePeaks 0).params.npixMax ∧
    (isInterior (frameW (fivePeaks 0)) (frameH (fivePeaks 0)) 2 2 ∧
      planeAt (fivePeaks 0) .dir (2 * 5 + 2) = 0 ∧
      planeAt (fivePeaks 0) .mag (2 * 5 + 1) ≤ planeAt (fivePeaks 0) .mag (2 * 5 + 2) ∧
      planeAt (fivePeaks 0) .mag (2 * 5 + 3) ≤ planeAt (fivePeaks 0) .mag (2 * 5 + 2)) ∧
    ¬isInterior (frameW (fivePeaks 0)) (frameH (fivePeaks 0)) 4 2 := by decide +kernel

theorem witness_BlurStaysWithinFootprint :
    ((255 : Nat) ≤ 255 ∧ ∀ k : Int, -3 ≤ k → k ≤ 3 → 255 ≤ (fun _ : Int => 255) k ∧ (fun _ : Int => 255) k ≤ 255) ∧
    (small.wf = true ∧ (3 : Nat) ≤ small.rmax ∧ (9 : Nat) ≤ 255 ∧ ∀ dx dy : Int, -((3 : Nat) : Int) ≤ dx → dx ≤ (3 : Nat) →
      -((3 : Nat) : Int) ≤ dy → dy ≤ (3 : Nat) → 9 ≤ (fun _ _ : Int => 9) dx dy ∧ (fun _ _ : Int => 9) dx dy ≤ 9) :=
  ⟨⟨by decide, by simp⟩, by decide, by decide, by decide, by simp⟩

theorem witness_RadiusZeroIsIdentity :
    { fullFrame with blurRadius := 0 }.blurRadius = 0 ∧
      frameN { fullFrame with blurRadius := 0 } ≤ { fullFrame with blurRadius := 0 }.params.npixMax := by decide

theorem witness_CoefficientsAreNormalised : small.wf = true ∧ (0 : Nat) ≤ small.rmax ∧ (3 : Nat) ≤ small.rmax := by decide

/-- An offset of a printed radius and the corner of the first radius beyond the printed tables. -/
theorem witness_CoefficientsQuantiseTheGaussian :
    ((1 : Nat) ≤ 1 ∧ (0 : Nat) ≤ 1 ∧ ¬((0 : Nat) = 0 ∧ (1 : Nat) = 0)) ∧ (1 : Nat) ≤ 4 ∧ ¬((4 : Nat) = 0 ∧ (4 : Nat) = 0) ∧
    coefLo 1 (0 * 0 + 1 * 1) = coefHi 1 (0 * 0 + 1 * 1) ∧ coefLo 4 (4 * 4 + 4 * 4) = coefHi 4 (4 * 4 + 4 * 4) := by
  decide +kernel

theorem witness_MicroOpsReachOnlyTheirSpaces :
    (∃ t, exec .luma fullFrame = .next t) ∧ (∃ t, exec .halt fullFrame = .next t) ∧
    Instr.copy ∉ planeWriters ∧ Instr.luma ∉ dstWriters := ⟨⟨_, rfl⟩, ⟨_, rfl⟩, by decide, by decide⟩

theorem witness_DatapathNeverRaises :
    Instr.blur2d ∈ dstWriters ++ planeWriters ∧ frameN fullFrame ≤ fullFrame.params.npixMax ∧
      fullFrame.blurRadius.toNat ≤ fullFrame.params.rmax := by decide

theorem witness_StopsOnlyOutsideTheSpaces :
    (Instr.hyst ∈ dstWriters ++ planeWriters ∧ (busyOn 73 1).params.npixMax < frameN (busyOn 73 1) ∧
      (busyOn 73 1).blurRadius.toNat ≤ (busyOn 73 1).params.rmax) ∧
    ({ fullFrame with blurRadius := 4 }.params.rmax < { fullFrame with blurRadius := 4 }.blurRadius.toNat) ∧
    Instr.check ∉ dstWriters ++ planeWriters := by decide

theorem witness_HostWritesRegisters :
    edgeStarted.phase = .busy ∧ loaded.phase ≠ .busy ∧ ((1 : Nat) ≤ 1 ∧ (1 : Nat) ≤ 4) ∧ (14 : Nat) ≤ 14 := by decide

theorem witness_BusyLocksTheHostOut : edgeStarted.phase = .busy := by decide

theorem witness_SrcWindowStoresBytes :
    loaded.phase ≠ .busy ∧ 287 < 4 * loaded.params.npixMax ∧ 4 * loaded.params.npixMax ≤ 288 := by decide

theorem witness_DstWindowGatesOutput :
    Invariant finished ∧ (finished.phase = .done ∧ 3 < finished.dstLen.toNat ∧ ¬4 < finished.dstLen.toNat) :=
  ⟨finished_invariant, by decide⟩

theorem witness_PlaneWindowInspects :
    loaded.phase ≠ .busy ∧ 71 < loaded.params.npixMax ∧ ¬72 < loaded.params.npixMax := by decide

theorem witness_StartDispatches :
    edgeStarted.phase = .busy ∧ loaded.phase ≠ .busy ∧ ¬(4 : Word).toNat > 4 ∧ (5 : Word).toNat > 4 ∧
      ¬(1 : Word).toNat > 1 ∧ (2 : Word).toNat > 1 := by decide

theorem witness_AckReleases :
    finished.phase = .done ∧ { loaded with phase := .error }.phase = .error ∧ loaded.phase = .idle ∧
      edgeStarted.phase = .busy := by decide

theorem witness_CanonicalMemoryUnique :
    ∃ m m' : Memory 8, m.wf ∧ m'.wf ∧ ∀ i, m.read i = m'.read i :=
  ⟨[(0, 1), (5, 7)], [(0, 1), (5, 7)], by decide, by decide, fun _ => rfl⟩

theorem witness_ResetMeetsInvariant : small.wf = true := by decide

theorem witness_StepKeepsInvariant :
    Invariant starting ∧ (∃ t, step starting = .next t) ∧ Invariant edgeStarted ∧ ∃ t, step edgeStarted = .next t :=
  ⟨starting_invariant, ⟨_, rfl⟩, edgeStarted_invariant, ⟨_, rfl⟩⟩

theorem witness_MachineNeverStops : Invariant edgeStarted := edgeStarted_invariant

theorem witness_StateChangesOnlyByNamedEvents :
    (∃ t, step starting = .next t ∧ t.phase ≠ starting.phase) ∧
    (∃ t, step { finished with inputs := [.host (.wr 0 2)] } = .next t ∧ t.phase ≠ finished.phase) ∧
    (∃ t, step { edgeStarted with inputs := [.rst] } = .next t ∧ t.phase ≠ edgeStarted.phase) ∧
    (∃ t, step { edgeStarted with upc := 0x1A } = .next t ∧ t.phase ≠ edgeStarted.phase) ∧
    ∃ t, step { edgeStarted with inputs := [.tick true] } = .next t ∧ t.phase ≠ edgeStarted.phase :=
  ⟨⟨_, rfl, by decide⟩, ⟨_, rfl, by decide⟩, ⟨_, rfl, by decide⟩, ⟨_, rfl, by decide⟩, ⟨_, rfl, by decide⟩⟩

theorem witness_TrapsArePrecise :
    emptyFrame.phase = .busy ∧ ∃ t, step emptyFrame = .next t ∧ t.phase = .error := ⟨by decide, _, rfl, by decide⟩

theorem witness_EveryInvocationEnds :
    Invariant edgeStarted ∧ edgeStarted.phase = .busy ∧ ∀ i ∈ edgeStarted.inputs, ∃ envFail, i = .tick envFail :=
  ⟨edgeStarted_invariant, by decide, fun _ h => absurd h (List.not_mem_nil)⟩

theorem witness_PassThroughInvocation :
    (starting.params.wf = true ∧ starting.phase ≠ .busy ∧ starting.inputs = [.host (.wr 0 1)] ∧ FrameChecked starting ∧
      starting.filterType.toNat ≤ 4 ∧ starting.enabled = 0) ∧
    ({ starting with enabled := 1 }.enabled = 1 ∧ { starting with enabled := 1 }.filterType = 0) := by decide

/-- The frame of P4, whose one interior pixel is `(1, 1)`, about to be started with the edge filter selected. -/
def startingEdge : State := { starting with
  enabled := 1, filterType := 4, srcWidth := 3, srcHeight := 3, srcLen := 36
  src := memOf [0, 0, 0, 1, 0, 0, 0, 1, 255, 255, 255, 1, 0, 0, 0, 1, 0, 0, 0, 1, 255, 255, 255, 1,
    0, 0, 0, 1, 0, 0, 0, 1, 255, 255, 255, 1] }

theorem witness_EdgeInvocationIsCanny :
    startingEdge.params.wf = true ∧ startingEdge.phase ≠ .busy ∧ startingEdge.inputs = [.host (.wr 0 1)] ∧
      FrameChecked startingEdge ∧ startingEdge.enabled = 1 ∧ startingEdge.filterType = 4 ∧
      startingEdge.lowThreshold.toNat ≤ startingEdge.highThreshold.toNat ∧
      isInterior (frameW startingEdge) (frameH startingEdge) 1 1 ∧
      ¬isInterior (frameW startingEdge) (frameH startingEdge) 2 1 := by decide

/-- A border pixel with LOW_THRESHOLD at least 1, and an interior pixel with LOW_THRESHOLD 0. -/
theorem witness_EdgeMapIsBinary :
    (startingEdge.params.wf = true ∧ startingEdge.phase ≠ .busy ∧ startingEdge.inputs = [.host (.wr 0 1)] ∧
      FrameChecked startingEdge ∧ startingEdge.enabled = 1 ∧ startingEdge.filterType = 4 ∧
      startingEdge.lowThreshold.toNat ≤ startingEdge.highThreshold.toNat ∧ 1 ≤ startingEdge.lowThreshold.toNat ∧
      ¬isInterior (frameW startingEdge) (frameH startingEdge) 0 0) ∧
    (FrameChecked { startingEdge with lowThreshold := 0 } ∧
      { startingEdge with lowThreshold := 0 }.lowThreshold.toNat ≤
        { startingEdge with lowThreshold := 0 }.highThreshold.toNat ∧
      isInterior (frameW { startingEdge with lowThreshold := 0 }) (frameH { startingEdge with lowThreshold := 0 }) 1 1) := by
  decide

/-- The frame of `starting` in a machine with another history: old output, old planes, a recorded trap. -/
def startingElsewhere : State := { starting with
  phase := .error, errCode := 6, errInfo := 4, upc := 9, dst := memOf [9, 9], luma := memOf [7], epoch := 3 }

theorem startingElsewhere_invariant : Invariant startingElsewhere where
  params := by decide
  memories := by constructor <;> decide
  idle := fun h => absurd h (by decide)
  busy := fun h => absurd h (by decide)
  done := fun h => absurd h (by decide)
  error := fun _ => by decide

theorem witness_OutputDependsOnInputAlone :
    Invariant starting ∧ Invariant startingElsewhere ∧ starting.phase ≠ .busy ∧ startingElsewhere.phase ≠ .busy ∧
      starting.inputs = [.host (.wr 0 1)] ∧ startingElsewhere.inputs = [.host (.wr 0 1)] ∧
      starting.params = startingElsewhere.params ∧ starting.filterType = startingElsewhere.filterType ∧
      starting.enabled = startingElsewhere.enabled ∧ starting.lowThreshold = startingElsewhere.lowThreshold ∧
      starting.highThreshold = startingElsewhere.highThreshold ∧ starting.blurRadius = startingElsewhere.blurRadius ∧
      starting.thresholdValue = startingElsewhere.thresholdValue ∧ starting.srcWidth = startingElsewhere.srcWidth ∧
      starting.srcHeight = startingElsewhere.srcHeight ∧ starting.srcLen = startingElsewhere.srcLen ∧
      ∀ i < starting.srcLen.toNat, srcAt starting i = srcAt startingElsewhere i :=
  ⟨starting_invariant, startingElsewhere_invariant, by decide, by decide, rfl, rfl, rfl, rfl, rfl, rfl, rfl, rfl, rfl, rfl,
    rfl, rfl, by decide⟩

end Sys2Proof.Tests
end

section
/-! PROOFS. What a micro-op that answers has done, said once, and where in UROM each micro-op stands. -/

namespace Sys2Proof.Machine

/-! ### What a micro-op does -/

/-- What a micro-op that answers a next state has done: a trap, HALT's DONE, a check that passed with what it established, a
whole output published, or planes written. -/
inductive MicroStep (s : State) : Instr → State → Prop
  | trapped {i : Instr} (c : Cause) (n : Nat) : MicroStep s i (trap c n s)
  | halted : MicroStep s .halt (enterDone s)
  | frame (h : FrameChecked s) : MicroStep s .check (advance s)
  | radius (h : s.blurRadius.toNat ≤ s.params.rmax) : MicroStep s .chkrad (advance s)
  | thresholds (h : s.lowThreshold.toNat ≤ s.highThreshold.toNat) : MicroStep s .chkthr (advance s)
  | published {i : Instr} (hi : i ∈ dstWriters) (f : Nat → Byte) : MicroStep s i (advance (publish f s))
  | planes {i : Instr} {t : State} (hi : i ∈ planeWriters) (h : exec i s = .next t) : MicroStep s i t

/-- A DST writer that answers has published some output. -/
theorem dstWriter_next {i : Instr} {s t : State} (hi : i ∈ dstWriters) (h : exec i s = .next t) :
    ∃ f, t = advance (publish f s) := by
  have hf := exec_fits (List.mem_append_left _ hi) h
  cases i with
  | copy => rw [exec_copy hf] at h; cases h; exact ⟨_, rfl⟩
  | grayf => rw [exec_grayf hf] at h; cases h; exact ⟨_, rfl⟩
  | thresh => rw [exec_thresh hf] at h; cases h; exact ⟨_, rfl⟩
  | blur2d => rw [exec_blur2d hf (execBlur2d_next h)] at h; cases h; exact ⟨_, rfl⟩
  | expand => rw [exec_expand hf] at h; cases h; exact ⟨_, rfl⟩
  | _ => simp [dstWriters] at hi

theorem microStep_of_exec {i : Instr} {s t : State} (h : exec i s = .next t) : MicroStep s i t := by
  cases i with
  | halt => cases h; exact .halted
  | check =>
    cases h
    unfold checked
    split
    · exact .trapped ..
    · exact .frame (frameChecked_of_none ‹_›)
  | chkrad =>
    cases h
    unfold checked radiusViolation
    split_ifs
    · exact .trapped ..
    · exact .radius (by omega)
  | chkthr =>
    cases h
    unfold checked thresholdViolation
    split_ifs
    · exact .trapped ..
    · exact .thresholds (by omega)
  | copy | grayf | thresh | expand | blur2d =>
    obtain ⟨f, rfl⟩ := dstWriter_next (by decide) h
    exact .published (by decide) f
  | luma | hblur | vblur | sobel | nms | dthr | hyst => exact .planes (by decide) h

/-- A fetched word that answers a next state ran as its micro-op, or trapped as illegal. -/
theorem execWord_cases {w : Byte} {s t : State} (h : execWord w s = .next t) :
    (∃ i, decode w = .op i ∧ MicroStep s i t) ∨ ∃ c n, t = trap c n s := by
  unfold execWord at h
  split at h
  · exact .inl ⟨_, ‹_›, microStep_of_exec h⟩
  · injection h with h
    exact .inr ⟨_, _, h.symm⟩

/-! ### Where the micro-ops stand (10_state.md R37) -/

/-- The indices of UROM that hold a micro-op. -/
def indicesOf : Instr → List Nat
  | .halt => HaltIndices
  | .check => EntryIndices
  | .chkrad => [9]
  | .chkthr => [17]
  | .copy => [1]
  | .grayf => [5]
  | .thresh => [13]
  | .luma => [18]
  | .expand => [25]
  | .blur2d => [10]
  | .hblur => [19]
  | .vblur => [20]
  | .sobel => [21]
  | .nms => [22]
  | .dthr => [23]
  | .hyst => [24]

theorem mem_indicesOf {u : Upc} {i : Instr} (h : decode (urom u) = .op i) : u.toNat ∈ indicesOf i := by
  revert u
  cases i <;> decide

theorem dstWriter_position {u : Upc} {i : Instr} (h : decode (urom u) = .op i) (hi : i ∈ dstWriters) :
    u.toNat ∈ [1, 5, 10, 13, 25] := by
  revert u
  revert i
  decide

theorem planeWriter_position {u : Upc} {i : Instr} (h : decode (urom u) = .op i) (hi : i ∈ planeWriters) :
    u.toNat ∈ [18, 19, 20, 21, 22, 23, 24] := by
  revert u
  revert i
  decide

/-- The micro-op that a fetched word decodes to is the one `programOps` lists. -/
theorem programOps_of_decode {u : Upc} {i : Instr} (h : decode (urom u) = .op i) : programOps.getD u.toNat none = some i := by
  rw [decode_urom] at h
  split at h
  · injection h with h
    rw [← h]
    assumption
  · cases h

/-! ### What the host does -/

/-- The program START selects, by its number (40_sequencer_control.md R111). -/
def selectedProgram (s : State) : Nat := if s.enabled = 0 then 0 else s.filterType.toNat

theorem selectedEntry_eq (s : State) : selectedEntry s = 4 * selectedProgram s := by
  unfold selectedEntry selectedProgram
  split <;> rfl

theorem selectedProgram_le {s : State} (h : s.filterType.toNat ≤ 4) : selectedProgram s ≤ 4 := by
  unfold selectedProgram
  split <;> omega

/-- The tests of START in R111's order; the first that fires wins. -/
def startViolation (s : State) : Option (Cause × Nat) :=
  if 4 < s.filterType.toNat then some (.badFilterType, s.filterType.toNat)
  else if 1 < s.enabled.toNat then some (.badOption, 6)
  else none

theorem options_of_startViolation {s : State} (h : startViolation s = none) :
    s.filterType.toNat ≤ 4 ∧ s.enabled.toNat ≤ 1 := by
  unfold startViolation at h
  split_ifs at h
  omega

/-- The core as START leaves it at the entry of the selected program. -/
def enterProgram (s : State) : State := { clearRecord s with upc := entry (selectedProgram s), phase := .busy }

theorem startCommand_busy {s : State} (hb : s.phase = .busy) : startCommand s = s := if_pos hb

/-- START outside BUSY: a trap on the first option that fails its test, or the entry of the selected program. -/
theorem startCommand_eq {s : State} (hb : s.phase ≠ .busy) :
    startCommand s = (startViolation s).elim (enterProgram s) fun v => trap v.1 v.2 (clearRecord s) := by
  by_cases h4 : 4 < s.filterType.toNat
  · rw [show startViolation s = _ from if_pos h4]
    exact (if_neg hb).trans (if_pos h4)
  by_cases h1 : 1 < s.enabled.toNat
  · rw [show startViolation s = _ from (if_neg h4).trans (if_pos h1)]
    exact (if_neg hb).trans ((if_neg h4).trans (if_pos h1))
  · rw [show startViolation s = _ from (if_neg h4).trans (if_neg h1), Option.elim_none, enterProgram, selectedProgram,
      apply_ite entry]
    exact (if_neg hb).trans ((if_neg h4).trans (if_neg h1))

/-- Everything ACK can do: from DONE or ERROR to IDLE, and nothing elsewhere. -/
theorem ackCommand_cases (s : State) :
    ((s.phase = .done ∨ s.phase = .error) ∧ ackCommand s = { clearRecord s with phase := .idle }) ∨ ackCommand s = s := by
  unfold ackCommand
  cases h : s.phase with
  | done => exact .inl ⟨.inl rfl, rfl⟩
  | error => exact .inl ⟨.inr rfl, rfl⟩
  | idle | busy => exact .inr rfl

/-- Everything a transaction can do: START, ACK, the port's read data at most, or, outside BUSY, a write to the options, the SRC
registers or SRC. -/
theorem transact_cases (a : Transaction) (s : State) :
    (∃ v, a = .wr 0 v ∧ s.phase ≠ .busy ∧ v.getLsbD 0 = true ∧ transact a s = startCommand s) ∨
    (∃ v, a = .wr 0 v ∧ s.phase ≠ .busy ∧ v.getLsbD 0 = false ∧ v.getLsbD 1 = true ∧ transact a s = ackCommand s) ∨
    transact a s = { s with answer := (transact a s).answer } ∨
    (s.phase ≠ .busy ∧ transact a s = { s with
      filterType := (transact a s).filterType, enabled := (transact a s).enabled
      lowThreshold := (transact a s).lowThreshold, highThreshold := (transact a s).highThreshold
      blurRadius := (transact a s).blurRadius, thresholdValue := (transact a s).thresholdValue
      srcWidth := (transact a s).srcWidth, srcHeight := (transact a s).srcHeight, srcLen := (transact a s).srcLen
      src := (transact a s).src }) := by
  cases a with
  | rd | rdbSrc | rdbDst | rdp => exact .inr (.inr (.inl rfl))
  | wrbSrc i b =>
    simp only [transact, srcWrite]
    split
    · exact .inr (.inr (.inr ⟨by tauto, rfl⟩))
    · exact .inr (.inr (.inl rfl))
  | wr i v =>
    simp only [transact, regWrite]
    split
    · exact .inr (.inr (.inl rfl))
    · rename_i hb
      split
      case h_1 =>
        unfold ctrlWrite
        split_ifs with h0 h1
        · exact .inl ⟨v, rfl, hb, h0, rfl⟩
        · exact .inr (.inl ⟨v, rfl, hb, by simpa using h0, h1, rfl⟩)
        · exact .inr (.inr (.inl rfl))
      all_goals exact .inr (.inr (.inr ⟨hb, rfl⟩))

end Sys2Proof.Machine
end

section
/-! PROOFS. Every step keeps the invariant. -/

namespace Sys2Proof.Machine

variable {s t : State} {i : Instr}

/-! ### The sequencer's steps -/

/-- HALT turns a published output into a complete one (40_sequencer_control.md R112). -/
theorem Invariant.haltStep (h : Invariant s) (hb : s.phase = .busy) (hu : s.upc.toNat ∈ HaltIndices) :
    Invariant (enterDone s) := by
  obtain ⟨hnt, hp⟩ := h.busy hb
  obtain ⟨hw, hh, hl, hd⟩ := hp.published hu
  have hne : s.upc.toNat ∉ EntryIndices := by
    simp only [HaltIndices, EntryIndices, List.mem_cons, List.not_mem_nil, or_false] at hu ⊢
    omega
  obtain ⟨h1, h2, hf, -⟩ := hp.frame hne
  have out : OutputComplete s := by
    unfold OutputComplete
    rw [hl, hw, hh]
    exact ⟨hu, h1, h2, hf, rfl, hd⟩
  exact Invariant.mk h.params { h.memories with } (nofun) (nofun) (fun _ => ⟨hnt, out⟩) (nofun)

/-- A check that passes keeps the invariant, given what it has established. -/
theorem Invariant.checkStep (h : Invariant s) (hb : s.phase = .busy) (hu : s.upc.toNat ∈ [0, 4, 8, 12, 16, 9, 17])
    (hf : FrameChecked s) (hr : s.upc.toNat = 9 → s.blurRadius.toNat ≤ s.params.rmax)
    (hth : s.upc.toNat = 17 → s.lowThreshold.toNat ≤ s.highThreshold.toNat) : Invariant (advance s) := by
  simp only [List.mem_cons, List.not_mem_nil, or_false] at hu
  refine h.midStep hb { h.memories with } rfl (by simp; omega) hf hr hth ?_ ?_ ?_ ?_ ?_ ?_ ?_ <;> omega

/-! Each stage of the edge program leaves whole the memories that the next one reads (10_state.md R23). -/

theorem luma_written (h : exec .luma s = .next t) : t.luma.written (frameN s) := by
  rw [exec_luma (exec_fits (by decide) h)] at h; cases h; exact Memory.written_fill _ _ _
theorem tmp_written (h : exec .hblur s = .next t) : t.tmp.written (frameN s) := by
  rw [exec_hblur (exec_fits (by decide) h)] at h; cases h; exact Memory.written_fill _ _ _
theorem blur_written (h : exec .vblur s = .next t) : t.blur.written (frameN s) := by
  rw [exec_vblur (exec_fits (by decide) h)] at h; cases h; exact Memory.written_fill _ _ _
theorem mag_written (h : exec .sobel s = .next t) : t.mag.written (frameN s) := by
  rw [exec_sobel (exec_fits (by decide) h)] at h; cases h; exact Memory.written_fill _ _ _
theorem dir_written (h : exec .sobel s = .next t) : t.dir.written (frameN s) := by
  rw [exec_sobel (exec_fits (by decide) h)] at h; cases h; exact Memory.written_fill _ _ _
theorem sup_written (h : exec .nms s = .next t) : t.sup.written (frameN s) := by
  rw [exec_nms (exec_fits (by decide) h)] at h; cases h; exact Memory.written_fill _ _ _
theorem edge_written_dthr (h : exec .dthr s = .next t) : t.edge.written (frameN s) := by
  rw [exec_dthr (exec_fits (by decide) h)] at h; cases h; exact Memory.written_fill _ _ _
theorem edge_written_hyst (h : exec .hyst s = .next t) (he : s.edge.written (frameN s)) : t.edge.written (frameN s) := by
  rw [exec_hyst (exec_fits (by decide) h)] at h; cases h; exact hystPass_written _ _ he

/-- A plane writer keeps the invariant: it leaves whole what the micro-op after it reads. -/
theorem Invariant.planeStep (h : Invariant s) (hb : s.phase = .busy) (hd : decode (fetch s) = .op i)
    (hi : i ∈ planeWriters) (hx : exec i s = .next t) : Invariant t := by
  obtain ⟨-, hp⟩ := h.busy hb
  have hu := planeWriter_position hd hi
  simp only [List.mem_cons, List.not_mem_nil, or_false] at hu
  have stage (k : Nat) (j : Instr) (hk : programOps.getD k none = some j) (e : s.upc.toNat = k) : exec j s = .next t := by
    have hj := programOps_of_decode hd
    rw [e, hk] at hj
    injection hj with hj
    rw [hj]
    exact hx
  refine h.midStep hb (exec_memories h.memories hx) (planeWriter_next hi hx) (by simp; omega)
    (hp.frame (by simp; omega)) (by omega) (by omega)
    (luma := fun e => luma_written (stage 18 .luma rfl e)) (tmp := fun e => tmp_written (stage 19 .hblur rfl e))
    (blur := fun e => blur_written (stage 20 .vblur rfl e)) (mag := fun e => mag_written (stage 21 .sobel rfl e))
    (dir := fun e => dir_written (stage 21 .sobel rfl e)) (sup := fun e => sup_written (stage 22 .nms rfl e))
    (edge := ?_)
  rintro (e | e)
  · exact edge_written_dthr (stage 23 .dthr rfl e)
  · exact edge_written_hyst (stage 24 .hyst rfl e) (hp.edge (.inl e))

theorem Invariant.microStep (h : Invariant s) (hb : s.phase = .busy) (hd : decode (fetch s) = .op i)
    (hm : MicroStep s i t) : Invariant t := by
  obtain ⟨-, hp⟩ := h.busy hb
  cases hm with
  | trapped c n => exact .ofTrap h.params h.memories c n
  | halted => exact h.haltStep hb (mem_indicesOf hd)
  | frame hf =>
    have hu := mem_indicesOf hd
    simp only [indicesOf, List.mem_cons, List.not_mem_nil, or_false] at hu
    exact h.checkStep hb (by simp; omega) hf (by omega) (by omega)
  | radius hr =>
    have hu := mem_indicesOf hd
    simp only [indicesOf, List.mem_cons, List.not_mem_nil, or_false] at hu
    exact h.checkStep hb (by simp [hu]) (hp.frame (by simp [hu])) (fun _ => hr) (by omega)
  | thresholds hth =>
    have hu := mem_indicesOf hd
    simp only [indicesOf, List.mem_cons, List.not_mem_nil, or_false] at hu
    exact h.checkStep hb (by simp [hu]) (hp.frame (by simp [hu])) (by omega) fun _ => hth
  | published hi f =>
    have hu := dstWriter_position hd hi
    refine h.publishStep hb (hp.frame ?_) f rfl hu
    simp only [EntryIndices, List.mem_cons, List.not_mem_nil, or_false] at hu ⊢
    omega
  | planes hi hx => exact h.planeStep hb hd hi hx

/-! ### The host's steps -/

/-- Outside BUSY the invariant reads only the memories, the trap record, `upc` and DST with its descriptor. -/
theorem Invariant.offBusy (h : Invariant s) (hb : s.phase ≠ .busy) (hm : MemoriesCanonical t)
    (ht : s.params = t.params ∧ s.phase = t.phase ∧ s.errCode = t.errCode ∧ s.errInfo = t.errInfo ∧ s.upc = t.upc ∧
      s.dstWidth = t.dstWidth ∧ s.dstHeight = t.dstHeight ∧ s.dstLen = t.dstLen ∧ s.dst = t.dst) : Invariant t := by
  obtain ⟨hw, -, hi, -, hd, he⟩ := h
  unfold NoTrapRecord OutputComplete DescriptorCleared at *
  obtain ⟨e1, e2, e3, e4, e5, e6, e7, e8, e9⟩ := ht
  rw [e1] at hw
  rw [e2] at hb
  rw [e2, e3, e4, e6, e7, e8] at hi
  rw [e1, e2, e3, e4, e5, e6, e7, e8, e9] at hd
  rw [e2, e3] at he
  exact ⟨hw, hm, hi, fun hb' => absurd hb' hb, hd, he⟩

/-- START keeps the invariant: a trap, or the entry of the selected program (40_sequencer_control.md R111). -/
theorem Invariant.start (h : Invariant s) : Invariant (startCommand s) := by
  by_cases hb : s.phase = .busy
  · rwa [startCommand_busy hb]
  rw [startCommand_eq hb]
  cases hv : startViolation s with
  | some v => exact .ofTrap (s := clearRecord s) h.params { h.memories with } v.1 v.2
  | none =>
    obtain ⟨h4, h1⟩ := options_of_startViolation hv
    obtain ⟨he, hk⟩ := entry_select (selectedProgram s) (selectedProgram_le h4)
    refine Invariant.mk h.params { h.memories with } (nofun) (fun _ => ⟨⟨rfl, rfl⟩, ?_⟩) (nofun) (nofun)
    exact .atEntry h4 h1 (he.trans (selectedEntry_eq s).symm) hk ⟨rfl, rfl, rfl⟩

/-- ACK keeps the invariant: IDLE with no record and no descriptor (45_host_interface.md R219). -/
theorem Invariant.ack (h : Invariant s) : Invariant (ackCommand s) := by
  obtain ⟨-, e⟩ | e := ackCommand_cases s <;> rw [e]
  · exact Invariant.mk h.params { h.memories with } (fun _ => ⟨⟨rfl, rfl⟩, rfl, rfl, rfl⟩) (nofun) (nofun) (nofun)
  · exact h

theorem Invariant.transaction (h : Invariant s) (a : Transaction) : Invariant (transact a s) := by
  obtain ⟨v, -, -, -, e⟩ | ⟨v, -, -, -, -, e⟩ | e | ⟨hb, e⟩ := transact_cases a s
  · exact e ▸ h.start
  · exact e ▸ h.ack
  · exact e ▸ h.withAnswer _
  · refine h.offBusy hb (transact_memories h.memories a) ?_
    rw [e]
    exact ⟨rfl, rfl, rfl, rfl, rfl, rfl, rfl, rfl, rfl⟩

/-- The invariant holds after every reset under well-formed parameters (10_state.md R40). -/
theorem Invariant.resetOf {p : Params} (hp : p.wf = true) (e : Nat) : Invariant (State.resetOf p e) :=
  ⟨hp, reset_memories p e, fun _ => ⟨⟨rfl, rfl⟩, rfl, rfl, rfl⟩, nofun, nofun, nofun⟩

/-- Settles O52: by what the outside world does, and for a micro-op by what it has done and where in UROM it stands. -/
theorem stepKeepsInvariant : Obligations.StepKeepsInvariant := by
  unfold Obligations.StepKeepsInvariant
  intro s t h hs
  obtain ⟨rest, ⟨a, -, ha⟩ | ⟨-, hr⟩ | ⟨-, ⟨-, hn⟩ | ⟨-, hf⟩ | ⟨hb, hw⟩⟩⟩ := step_cases hs
  · injection ha with ha
    exact ha ▸ (h.withInputs rest).transaction a
  · injection hr with hr
    exact hr ▸ (Invariant.resetOf h.params (s.epoch + 1)).withInputs rest
  · injection hn with hn
    exact hn ▸ h.withInputs rest
  · injection hf with hf
    exact hf ▸ .ofTrap (h.withInputs rest).params (h.withInputs rest).memories _ _
  · obtain ⟨i, hd, hm⟩ | ⟨c, n, rfl⟩ := execWord_cases hw.symm
    · exact (h.withInputs rest).microStep hb hd hm
    · exact .ofTrap (h.withInputs rest).params (h.withInputs rest).memories c n

end Sys2Proof.Machine
end

section
/-! PROOFS. Reset, STATUS, and the printed ROMs. -/

namespace Sys2Proof.Machine

/-! ### Reset (10_state.md R40) -/

theorem statusWord_resetOf (p : Params) (e : Nat) : statusWord (State.resetOf p e) = 0 := by
  simp [statusWord, dstValid, phaseCode, State.resetOf]

/-- Settles O49: every field is the literal that `State.resetOf` gives it. -/
theorem resetSetsEveryRegister : Obligations.ResetSetsEveryRegister := by
  unfold Obligations.ResetSetsEveryRegister
  refine fun p e => ⟨?_, rfl, rfl, rfl, fun i => ⟨rfl, rfl, rfl, rfl, rfl, rfl, rfl, rfl, rfl⟩⟩
  simp only [List.range_succ, List.range_zero, List.nil_append, List.cons_append, List.map_cons, List.map_nil, regRead,
    statusWord_resetOf]
  rfl

/-- The parameters of `State.reset` are well-formed (00_scope.md R6). -/
theorem instanceParams_wf : Config.instanceParams.wf = true := by decide

/-- Settles O51: reset leaves the core IDLE, its memories empty and its record and descriptor cleared. -/
theorem resetMeetsInvariant : Obligations.ResetMeetsInvariant := by
  unfold Obligations.ResetMeetsInvariant
  exact ⟨fun _ e hp => .resetOf hp e, .resetOf instanceParams_wf 0⟩

/-! ### STATUS (10_state.md R30) -/

theorem dstValid_iff (s : State) : dstValid s = true ↔ s.phase = .done := by simp [dstValid]

/-- Settles O54: by what the outside world does; a step that neither starts, acknowledges, resets, halts nor traps keeps STATE. -/
theorem stateChangesOnlyByNamedEvents : Obligations.StateChangesOnlyByNamedEvents := by
  unfold Obligations.StateChangesOnlyByNamedEvents
  refine ⟨fun s => ⟨dstValid_iff s, ?_⟩, fun s t h hne => ?_⟩
  · cases hp : s.phase <;> simp [statusWord, dstValid, phaseCode, hp]
  have traps (r : State) (c : Cause) (n : Nat) : (trap c n r).phase = .error ∧ (trap c n r).errCode ≠ 0 :=
    ⟨rfl, fun e => by cases c <;> cases e⟩
  obtain ⟨rest, ⟨a, ha, e⟩ | ⟨hi, e⟩ | ⟨-, ⟨-, e⟩ | ⟨hb, e⟩ | ⟨hb, e⟩⟩⟩ := step_cases h
  · injection e with e
    obtain ⟨v, rfl, hb, h0, ht⟩ | ⟨v, rfl, hb, h0, h1, ht⟩ | ht | ⟨-, ht⟩ := transact_cases a { s with inputs := rest }
    · refine .inl ⟨v, rest, ha, h0, hb, ?_⟩
      rw [e, ht, startCommand_eq hb]
      cases startViolation { s with inputs := rest } with
      | none => exact .inl rfl
      | some v => exact .inr rfl
    · obtain ⟨hd, hs⟩ | hs := ackCommand_cases { s with inputs := rest }
      · exact .inr (.inl ⟨v, rest, ha, h0, h1, hd, by rw [e, ht, hs]⟩)
      · exact absurd (by rw [e, ht, hs]) hne
    · exact absurd (by rw [e, ht]) hne
    · exact absurd (by rw [e, ht]) hne
  · injection e with e
    exact .inr (.inr (.inl ⟨rest, hi, by rw [e]; rfl⟩))
  · injection e with e
    exact absurd (by rw [e]) hne
  · injection e with e
    exact .inr (.inr (.inr (.inr ⟨hb, e ▸ traps _ _ _⟩)))
  · obtain hk | ⟨hd, ht⟩ | ⟨c, n, rfl⟩ := execWord_phase e.symm
    · exact absurd hk hne
    · exact .inr (.inr (.inr (.inl ⟨hb, hd, ht⟩)))
    · exact .inr (.inr (.inr (.inr ⟨hb, traps _ _ _⟩)))

/-! ### The ROMs (10_state.md R35 to R37) -/

/-- Settles O4: UROM and the entry table are closed data. -/
theorem romHoldsTheMicroPrograms : Obligations.RomHoldsTheMicroPrograms := by
  unfold Obligations.RomHoldsTheMicroPrograms
  decide

/-- Settles O27: K1 and the tables of COEF2D up to radius 3 are closed data. -/
theorem coefficientTablesAsPrinted : Obligations.CoefficientTablesAsPrinted := by
  unfold Obligations.CoefficientTablesAsPrinted
  decide

end Sys2Proof.Machine
end
section
/-! PROOFS. The coefficients of COEF2D: symmetric and normalised (10_state.md R36), and the quantised Gaussian (R41). -/

namespace Sys2Proof.Machine

/-! ### Sums over a kernel -/

theorem overKernel_add (r : Nat) (f g : Int → Int → Nat) :
    overKernel r (fun dx dy => f dx dy + g dx dy) = overKernel r f + overKernel r g := by
  simp only [overKernel, Finset.sum_add_distrib]

/-- Only the centre of a kernel has offset 0 in both directions. -/
theorem overKernel_centre (r c : Nat) :
    overKernel r (fun dx dy => if dx.natAbs = 0 ∧ dy.natAbs = 0 then c else 0) = c := by
  have centre (k : Nat) : ((k : Int) - r).natAbs = 0 ↔ r = k := by omega
  have hr : r ∈ Finset.range (2 * r + 1) := by simp; omega
  simp only [overKernel, centre, ite_and, Finset.sum_ite_eq, if_pos hr]

/-- A kernel sum of natural numbers is at least each of its terms. -/
theorem le_overKernel {r : Nat} (f : Int → Int → Nat) {i j : Nat} (hi : i ≤ r) (hj : j ≤ r) : f i j ≤ overKernel r f := by
  have term (k : Nat) : (((k + r : Nat) : Int) - r) = k := by omega
  have hrow := Finset.single_le_sum (f := fun a : Nat => f ((a : Int) - r) j) (s := Finset.range (2 * r + 1)) (a := i + r)
    (fun _ _ => Nat.zero_le _) (by simp; omega)
  have hall := Finset.single_le_sum (f := fun b : Nat => ∑ a ∈ Finset.range (2 * r + 1), f ((a : Int) - r) ((b : Int) - r))
    (s := Finset.range (2 * r + 1)) (a := j + r) (fun _ _ => Nat.zero_le _) (by simp; omega)
  simp only [term] at hrow hall
  exact hrow.trans hall

/-- A kernel sum is monotone in the samples of its footprint. -/
theorem overKernel_le {r : Nat} {f g : Int → Int → ℝ}
    (h : ∀ dx dy : Int, dx.natAbs ≤ r → dy.natAbs ≤ r → f dx dy ≤ g dx dy) : overKernel r f ≤ overKernel r g := by
  refine Finset.sum_le_sum fun j hj => Finset.sum_le_sum fun i hi => h _ _ ?_ ?_
  · have := Finset.mem_range.1 hi; omega
  · have := Finset.mem_range.1 hj; omega

/-! ### The weights are normalised (10_state.md R36 P1 to P4) -/

theorem coef2d_symm (r i j : Nat) : coef2d r i j = coef2d r j i := by
  simp only [coef2d, min_comm, max_comm, and_comm]

/-- Beyond the printed tables the centre takes what the other weights leave of 65536. -/
theorem coef2d_split {r : Nat} (hr : 3 < r) (i j : Nat) : coef2d r i j =
    (if i = 0 ∧ j = 0 then 65536 - coefRest r else 0) +
      if i = 0 ∧ j = 0 then 0 else coefOffCentre r (min i j) (max i j) := by
  unfold coef2d
  rw [if_neg (by omega)]
  split <;> omega

theorem overKernel_coef2d {r : Nat} (h : coefRest r ≤ 65536) :
    overKernel r (fun dx dy => coef2d r dx.natAbs dy.natAbs) = 65536 := by
  by_cases hr : r ≤ 3
  · rw [← kernelSum_eq]
    interval_cases r <;> decide
  · simp only [coef2d_split (Nat.lt_of_not_le hr)]
    rw [overKernel_add, overKernel_centre, ← kernelSum_eq r fun i j =>
      if i = 0 ∧ j = 0 then 0 else coefOffCentre r (min i j) (max i j)]
    exact Nat.sub_add_cancel h

/-- Settles O28: a printed table sums to 65536, a generated one by the choice of its centre, and no weight exceeds the sum. -/
theorem coefficientsAreNormalised : Obligations.CoefficientsAreNormalised := by
  unfold Obligations.CoefficientsAreNormalised
  refine ⟨rfl, coef2d_symm, fun p r hp hr => ?_⟩
  have hsum := overKernel_coef2d (Params.coefRest_le hp hr)
  exact ⟨hsum, fun i hi j hj => hsum ▸ le_overKernel (fun dx dy => coef2d r dx.natAbs dy.natAbs) hi hj⟩

/-! ### The weights quantise the Gaussian (10_state.md R41) -/

/-- R41's real weight at a squared distance. -/
noncomputable def gaussian (r d : Nat) : ℝ := Real.exp (-(d : ℝ) * 9 / (2 * (r : ℝ) ^ 2))

/-- R41's `G`, the sum of all real weights. -/
noncomputable def gaussianSum (r : Nat) : ℝ :=
  overKernel r fun dx dy => gaussian r (dx.natAbs * dx.natAbs + dy.natAbs * dy.natAbs)

/-- R41's quotient, rounded to nearest when its floor is taken. -/
noncomputable def gaussianShare (r d : Nat) : ℝ := 65536 * (gaussian r d / gaussianSum r) + 1 / 2

theorem overKernel_cast (r : Nat) (f : Int → Int → Nat) :
    ((overKernel r f : Nat) : ℝ) = overKernel r fun dx dy => (f dx dy : ℝ) := by
  simp only [overKernel, Nat.cast_sum]

theorem overKernel_mul (r : Nat) (c : ℝ) (f : Int → Int → ℝ) :
    overKernel r (fun dx dy => c * f dx dy) = c * overKernel r f := by
  simp only [overKernel, Finset.mul_sum]

/-- A squared distance inside the kernel is at most that of its corner. -/
theorem distance_le {r i j : Nat} (hi : i ≤ r) (hj : j ≤ r) : i * i + j * j ≤ 2 * r * r := by nlinarith

/-- The integer sums bound the scaled real sum. -/
theorem weightSum_bounds {r : Nat} (hr : 1 ≤ r) :
    (weightSumLo r : ℝ) ≤ weightScale r * gaussianSum r ∧ weightScale r * gaussianSum r ≤ weightSumHi r := by
  unfold weightSumLo weightSumHi gaussianSum
  rw [kernelSum_eq, kernelSum_eq, overKernel_cast, overKernel_cast, ← overKernel_mul]
  exact ⟨overKernel_le fun dx dy hx hy => (weight_bounds hr (distance_le hx hy)).1,
    overKernel_le fun dx dy hx hy => (weight_bounds hr (distance_le hx hy)).2⟩

theorem expSeries_zero (b n : Nat) : expSeries 0 b n = (b ^ n * n.factorial : Nat) := by
  induction n with
  | zero => rfl
  | succ n ih => rw [expSeries, ih, Nat.factorial_succ]; push_cast; ring

/-- At exponent 0 the integer series outweighs its error bound. -/
theorem expError_zero_lt {b n : Nat} (hb : 1 < b) (hn : n ≠ 0) : (expError 0 b n : Int) < expSeries 0 b n := by
  have h1 : 1 < b ^ n * n.factorial :=
    Nat.lt_of_lt_of_le (Nat.one_lt_pow hn hb) (Nat.le_mul_of_pos_right _ (Nat.factorial_pos _))
  rw [expSeries_zero, expError]
  simpa using Int.ofNat_lt.2 h1

/-- The sum of the lower bounds is positive, so that R41's quotient has a bound above. -/
theorem weightSumLo_pos {r : Nat} (hr : 1 ≤ r) : 0 < weightSumLo r := by
  have hcentre : 0 < weightLo r 0 := by
    have h := Int.sub_pos_of_lt (expError_zero_lt (b := 32 * r * r) (n := expTerms) (by nlinarith) (by decide))
    rw [weightLo, Nat.mul_zero]
    exact Nat.pow_pos (Int.lt_toNat.2 h)
  have hsum := le_overKernel (fun dx dy => weightLo r (dx.natAbs * dx.natAbs + dy.natAbs * dy.natAbs)) (Nat.zero_le r)
    (Nat.zero_le r)
  rw [weightSumLo, kernelSum_eq]
  exact Nat.lt_of_lt_of_le hcentre (by simpa only [Int.natAbs_natCast, Nat.mul_zero, Nat.add_zero] using hsum)

/-- The integer division that rounds a share of 65536 to nearest is the floor of the real one. -/
theorem rounded_share (w g : Nat) (hg : 0 < g) :
    (131072 * w + g) / (2 * g) = ⌊(65536 * ((w : ℝ) / g) + 1 / 2 : ℝ)⌋₊ := by
  have hg' : (g : ℝ) ≠ 0 := by positivity
  rw [← Nat.floor_div_eq_div (K := ℝ)]
  congr 1
  push_cast
  field_simp
  ring

/-- The integer bounds hold R41's rounded share between them. -/
theorem coef_bounds {r d : Nat} (hr : 1 ≤ r) (hd : d ≤ 2 * r * r) :
    coefLo r d ≤ ⌊gaussianShare r d⌋₊ ∧ ⌊gaussianShare r d⌋₊ ≤ coefHi r d := by
  obtain ⟨wlo, whi⟩ : (weightLo r d : ℝ) ≤ weightScale r * gaussian r d ∧ weightScale r * gaussian r d ≤ weightHi r d :=
    weight_bounds hr hd
  obtain ⟨glo, ghi⟩ := weightSum_bounds hr
  have hs := weightScale_pos hr
  have hlo : (0 : ℝ) < weightSumLo r := by exact_mod_cast weightSumLo_pos hr
  have hsum := hlo.trans_le glo
  have scaled : gaussian r d / gaussianSum r = weightScale r * gaussian r d / (weightScale r * gaussianSum r) :=
    (mul_div_mul_left _ _ hs.ne').symm
  have hpos : 0 ≤ weightScale r * gaussian r d := mul_nonneg hs.le (Real.exp_pos _).le
  rw [coefLo, coefHi, rounded_share _ _ (by exact_mod_cast hsum.trans_le ghi), rounded_share _ _ (weightSumLo_pos hr),
    gaussianShare, scaled]
  have below := div_le_div₀ hpos wlo hsum ghi
  have above := div_le_div₀ (by positivity) whi hlo glo
  exact ⟨Nat.floor_le_floor (by linarith), Nat.floor_le_floor (by linarith)⟩

/-- The integer bounds agree up to radius 3, where the tables are printed. -/
theorem coef_bounds_agree : ∀ r ≤ 3, ∀ i ≤ r, ∀ j ≤ r, coefLo r (i * i + j * j) = coefHi r (i * i + j * j) := by
  decide +kernel

/-- The printed tables are the settled weights. -/
theorem coefTable_settled : ∀ r ≤ 3, ∀ i ≤ r, ∀ j ≤ r, 0 < i + j →
    coefTable r (min i j) (max i j) = coefLo r (i * i + j * j) := by decide +kernel

/-- Where the bounds agree, the weight is what they agree on. -/
theorem coef2d_settled {r i j : Nat} (hi : i ≤ r) (hj : j ≤ r) (hc : ¬(i = 0 ∧ j = 0))
    (h : coefLo r (i * i + j * j) = coefHi r (i * i + j * j)) : coef2d r i j = coefLo r (i * i + j * j) := by
  have hd : min i j * min i j + max i j * max i j = i * i + j * j := by
    rcases le_total i j with e | e
    · rw [min_eq_left e, max_eq_right e]
    · rw [min_eq_right e, max_eq_left e, Nat.add_comm]
  by_cases h3 : r ≤ 3
  · exact (if_pos h3).trans (coefTable_settled r h3 i hi j hj (by omega))
  · rw [coef2d, if_neg h3, if_neg hc, coefOffCentre, if_neg h3, coefGenerated]
    simp only [hd, if_pos h]

/-- The floor that the statement writes out is that of `gaussianShare`. -/
theorem gaussianShare_eq (r i j : Nat) : gaussianShare r (i * i + j * j) =
    65536 * Real.exp (-((i : ℝ) ^ 2 + (j : ℝ) ^ 2) * 9 / (2 * (r : ℝ) ^ 2)) /
      overKernel r (fun dx dy => Real.exp (-((dx : ℝ) ^ 2 + (dy : ℝ) ^ 2) * 9 / (2 * (r : ℝ) ^ 2))) + 1 / 2 := by
  have square (k : Int) : ((k.natAbs : Nat) : ℝ) * (k.natAbs : ℝ) = (k : ℝ) ^ 2 := by
    rw [← Nat.cast_mul, ← Int.cast_natCast, Int.natAbs_mul_self, Int.cast_mul, sq]
  simp only [gaussianShare, gaussianSum, gaussian, Nat.cast_add, Nat.cast_mul, square, sq (i : ℝ), sq (j : ℝ), mul_div_assoc]

theorem gaussianShare_nonneg (r d : Nat) : 0 ≤ gaussianShare r d := by
  unfold gaussianShare gaussianSum overKernel gaussian
  positivity

/-- Settles O29: the integer bounds hold R41's rounded share between them, so it is what they agree on. -/
theorem coefficientsQuantiseTheGaussian : Obligations.CoefficientsQuantiseTheGaussian := by
  unfold Obligations.CoefficientsQuantiseTheGaussian
  refine ⟨coef_bounds_agree, fun r i j hr hi hj hc h => ?_⟩
  obtain ⟨lo, hi'⟩ := coef_bounds hr (distance_le hi hj)
  rw [coef2d_settled hi hj hc h, ← gaussianShare_eq, ← Int.natCast_floor_eq_floor (gaussianShare_nonneg _ _)]
  exact congrArg Nat.cast (lo.antisymm (h ▸ hi'))

end Sys2Proof.Machine
end
section
/-! PROOFS. An invocation never stops short of its end: every micro-op a program reaches answers, and `upc` counts the steps. -/

namespace Sys2Proof.Machine

variable {s t : State} {i : Instr}

/-- A datapath micro-op answers on every frame that the planes hold. -/
theorem datapath_answers (hi : i ∈ dstWriters ++ planeWriters) (hf : frameN s ≤ s.params.npixMax)
    (hr : i = .blur2d → s.blurRadius.toNat ≤ s.params.rmax) : ∃ t, exec i s = .next t := by
  cases i with
  | copy => exact ⟨_, exec_copy hf⟩
  | grayf => exact ⟨_, exec_grayf hf⟩
  | thresh => exact ⟨_, exec_thresh hf⟩
  | expand => exact ⟨_, exec_expand hf⟩
  | blur2d => exact ⟨_, exec_blur2d hf (hr rfl)⟩
  | luma => exact ⟨_, exec_luma hf⟩
  | hblur => exact ⟨_, exec_hblur hf⟩
  | vblur => exact ⟨_, exec_vblur hf⟩
  | sobel => exact ⟨_, exec_sobel hf⟩
  | nms => exact ⟨_, exec_nms hf⟩
  | dthr => exact ⟨_, exec_dthr hf⟩
  | hyst => exact ⟨_, exec_hyst hf⟩
  | halt | check | chkrad | chkthr => simp [dstWriters, planeWriters] at hi

/-- A program's datapath micro-ops stand behind its CHECK. -/
theorem datapath_position {u : Upc} (h : decode (urom u) = .op i) (hi : i ∈ dstWriters ++ planeWriters) :
    u.toNat ∉ EntryIndices := by
  revert u
  revert i
  decide

/-- What a running invocation has established when it reaches a datapath micro-op. -/
theorem Invariant.frameAt (h : Invariant s) (hb : s.phase = .busy) (hd : decode (fetch s) = .op i)
    (hi : i ∈ dstWriters ++ planeWriters) : FrameChecked s :=
  (h.busy hb).2.frame (datapath_position hd hi)

/-- The word at `upc` of a running invocation is a micro-op, and it answers. -/
theorem Invariant.fetch_answers (h : Invariant s) (hb : s.phase = .busy) :
    ∃ i t, decode (fetch s) = .op i ∧ exec i s = .next t := by
  obtain ⟨-, hp⟩ := h.busy hb
  obtain ⟨i, hi⟩ := Option.isSome_iff_exists.1 (programOps_some hp.position)
  have hd : decode (fetch s) = .op i := by rw [fetch, decode_urom, hi]
  by_cases hdp : i ∈ dstWriters ++ planeWriters
  · obtain ⟨-, -, hf, -⟩ := h.frameAt hb hd hdp
    obtain ⟨t, ht⟩ := datapath_answers hdp hf fun e => hp.radius (by simpa [indicesOf, e] using mem_indicesOf hd)
    exact ⟨i, t, hd, ht⟩
  · cases i with
    | halt | check | chkrad | chkthr => exact ⟨_, _, hd, rfl⟩
    | _ => simp [dstWriters, planeWriters] at hdp

/-- A micro-op that leaves the core BUSY advances `upc` and keeps the selection. -/
theorem MicroStep.advances (hm : MicroStep s i t) (ht : t.phase = .busy) :
    t.upc = s.upc + 1 ∧ selectedEntry t = selectedEntry s := by
  cases hm with
  | trapped | halted => cases ht
  | frame | radius | thresholds | published => exact ⟨rfl, rfl⟩
  | planes hi hx =>
    rw [planeWriter_next hi hx]
    exact ⟨rfl, rfl⟩

/-- No program is longer than the eleven words of the edge filter (30_encoding.md R97). -/
theorem Progress.upc_le (hp : Progress s) : s.upc.toNat ≤ selectedEntry s + 10 := by
  rw [← hp.program, programEntry]
  have := hp.position.1
  split <;> omega

end Sys2Proof.Machine
end

section
/-! PROOFS. Two machines that agree on the input and the options, in lockstep (10_state.md R23). -/

namespace Sys2Proof.Machine

/-! ### What the stages make of equal planes -/

/-- Two states hold the same `w` by `h` elements of a plane. -/
def SamePlane (w h : Nat) (s s' : State) (p : Plane) : Prop := ∀ x < w, ∀ y < h, elementAt s p x y = elementAt s' p x y

/-- Two states hold the same frame: its size and the bytes of SRC that it covers. -/
structure SameFrame (s s' : State) : Prop where
  width : frameW s = frameW s'
  height : frameH s = frameH s'
  bytes : ∀ i < 4 * frameN s, srcAt s i = srcAt s' i

section
variable {s s' t t' : State} {x y : Nat}

theorem SameFrame.px (h : SameFrame s s') (hx : x < frameW s) (hy : y < frameH s) {c : Nat} (hc : c < 4) :
    px s x y c = px s' x y c := by
  have := index_lt hx hy
  rw [Machine.px, Machine.px, ← h.width]
  exact h.bytes _ (by simp only [frameN, indexOf]; omega)

theorem SameFrame.lumaOfPixel (h : SameFrame s s') {i : Nat} (hi : i < frameN s) : lumaOfPixel s i = lumaOfPixel s' i := by
  rw [Machine.lumaOfPixel, Machine.lumaOfPixel, h.bytes _ (by omega), h.bytes _ (by omega), h.bytes _ (by omega)]

theorem SameFrame.luma (h : SameFrame s s') (hx : exec .luma s = .next t) (hx' : exec .luma s' = .next t') :
    SamePlane (frameW s) (frameH s) t t' .luma := fun x hxw y hyh => by
  rw [elementAt_luma hx hxw hyh, elementAt_luma hx' (h.width ▸ hxw) (h.height ▸ hyh), h.px hxw hyh (by decide),
    h.px hxw hyh (by decide), h.px hxw hyh (by decide)]

theorem SameFrame.tmp (h : SameFrame s s') (hp : SamePlane (frameW s) (frameH s) s s' .luma)
    (hx : exec .hblur s = .next t) (hx' : exec .hblur s' = .next t') :
    SamePlane (frameW s) (frameH s) t t' .tmp := fun x hxw y hyh => by
  rw [elementAt_tmp hx hxw hyh, elementAt_tmp hx' (h.width ▸ hxw) (h.height ▸ hyh), ← h.width]
  exact congrArg sevenTap (funext fun k => hp _ (nearestIn_lt (by omega) _) y hyh)

theorem SameFrame.blur (h : SameFrame s s') (hp : SamePlane (frameW s) (frameH s) s s' .tmp)
    (hx : exec .vblur s = .next t) (hx' : exec .vblur s' = .next t') :
    SamePlane (frameW s) (frameH s) t t' .blur := fun x hxw y hyh => by
  rw [elementAt_blur hx hxw hyh, elementAt_blur hx' (h.width ▸ hxw) (h.height ▸ hyh), ← h.height]
  exact congrArg sevenTap (funext fun k => hp x hxw _ (nearestIn_lt (by omega) _))

/-- Both gradients at an interior pixel read only elements of the frame. -/
theorem blurGrad_congr (hp : SamePlane (frameW s) (frameH s) s s' .blur) (hi : isInterior (frameW s) (frameH s) x y) :
    blurGradX s x y = blurGradX s' x y ∧ blurGradY s x y = blurGradY s' x y := by
  obtain ⟨-, hxw, -, hyh⟩ := hi
  have near {a b : Nat} (ha : a ≤ x + 1) (hb : b ≤ y + 1) : elementAt s .blur a b = elementAt s' .blur a b :=
    hp a (by omega) b (by omega)
  simp (disch := omega) only [blurGradX, blurGradY, gradX, gradY, near, and_self]

theorem SameFrame.mag (h : SameFrame s s') (hp : SamePlane (frameW s) (frameH s) s s' .blur)
    (hx : exec .sobel s = .next t) (hx' : exec .sobel s' = .next t') :
    SamePlane (frameW s) (frameH s) t t' .mag := fun x hxw y hyh => by
  rw [elementAt_mag hx hxw hyh, elementAt_mag hx' (h.width ▸ hxw) (h.height ▸ hyh), sobelMag, sobelMag, ← h.width, ← h.height]
  split
  · obtain ⟨ex, ey⟩ := blurGrad_congr hp ‹_›
    rw [ex, ey]
  · rfl

theorem SameFrame.dir (h : SameFrame s s') (hp : SamePlane (frameW s) (frameH s) s s' .blur)
    (hx : exec .sobel s = .next t) (hx' : exec .sobel s' = .next t') :
    SamePlane (frameW s) (frameH s) t t' .dir := fun x hxw y hyh => by
  rw [elementAt_dir hx hxw hyh, elementAt_dir hx' (h.width ▸ hxw) (h.height ▸ hyh), sobelDir, sobelDir, ← h.width, ← h.height]
  split
  · obtain ⟨ex, ey⟩ := blurGrad_congr hp ‹_›
    rw [ex, ey]
  · rfl

/-- The neighbours of a sector are adjacent (43_gradient_nms.md R174). -/
theorem sectorNeighbours_le (code x y : Nat) :
    ((sectorNeighbours code x y).1.1 ≤ x + 1 ∧ (sectorNeighbours code x y).1.2 ≤ y + 1) ∧
    (sectorNeighbours code x y).2.1 ≤ x + 1 ∧ (sectorNeighbours code x y).2.2 ≤ y + 1 := by
  unfold sectorNeighbours
  split <;> simp only <;> omega

theorem SameFrame.sup (h : SameFrame s s') (hm : SamePlane (frameW s) (frameH s) s s' .mag)
    (hd : SamePlane (frameW s) (frameH s) s s' .dir)
    (hx : exec .nms s = .next t) (hx' : exec .nms s' = .next t') :
    SamePlane (frameW s) (frameH s) t t' .sup := fun x hxw y hyh => by
  rw [elementAt_sup hx hxw hyh, elementAt_sup hx' (h.width ▸ hxw) (h.height ▸ hyh), nmsAt, nmsAt, ← h.width, ← h.height]
  split
  · rename_i hi
    obtain ⟨-, hxi, -, hyi⟩ := hi
    obtain ⟨⟨h1, h2⟩, h3, h4⟩ := sectorNeighbours_le (elementAt s .dir x y) x y
    have near {a b : Nat} (ha : a ≤ x + 1) (hb : b ≤ y + 1) : elementAt s .mag a b = elementAt s' .mag a b :=
      hm a (by omega) b (by omega)
    simp only [← hd x hxw y hyh, near h1 h2, near h3 h4, near (Nat.le_succ x) (Nat.le_succ y)]
  · rfl

theorem SameFrame.marks (h : SameFrame s s') (hp : SamePlane (frameW s) (frameH s) s s' .sup)
    (hlo : s.lowThreshold = s'.lowThreshold) (hhi : s.highThreshold = s'.highThreshold)
    (hx : exec .dthr s = .next t) (hx' : exec .dthr s' = .next t') :
    SamePlane (frameW s) (frameH s) t t' .edge := fun x hxw y hyh => by
  rw [elementAt_edge_dthr hx hxw hyh, elementAt_edge_dthr hx' (h.width ▸ hxw) (h.height ▸ hyh), hlo, hhi, hp x hxw y hyh]

end

/-! ### The pass of HYST on equal marks -/

section
variable {free free' : Nat → Byte} {w h : Nat} {m m' : Memory 8}

/-- Two plane contents hold the same marks in a frame. -/
def SameMarks (free free' : Nat → Byte) (w h : Nat) (m m' : Memory 8) : Prop :=
  ∀ x < w, ∀ y < h, markAt free w m x y = markAt free' w m' x y

/-- The eight neighbours of an interior pixel lie in the frame. -/
theorem eightNeighbours_inside {x y : Nat} (hi : isInterior w h x y) {q : Nat × Nat} (hq : q ∈ eightNeighbours x y) :
    q.1 < w ∧ q.2 < h := by
  obtain ⟨-, hx, -, hy⟩ := hi
  simp only [eightNeighbours, List.mem_cons, List.not_mem_nil, or_false] at hq
  rcases hq with rfl | rfl | rfl | rfl | rfl | rfl | rfl | rfl <;> constructor <;> simp only <;> omega

theorem SameMarks.visit (hm : SameMarks free free' w h m m') {p : Nat × Nat} (hp : isInterior w h p.1 p.2) :
    SameMarks free free' w h (hystVisit free w m p) (hystVisit free' w m' p) := by
  intro x hx y hy
  by_cases e : indexOf w x y = indexOf w p.1 p.2
  · obtain ⟨rfl, rfl⟩ := index_inj hx (by have := hp.2.1; omega) e
    have hany : ((eightNeighbours p.1 p.2).any fun q => markAt free w m q.1 q.2 == 255) =
        (eightNeighbours p.1 p.2).any fun q => markAt free' w m' q.1 q.2 == 255 := by
      rw [Bool.eq_iff_iff, List.any_eq_true, List.any_eq_true]
      refine exists_congr fun q => and_congr_right fun hq => ?_
      obtain ⟨hqx, hqy⟩ := eightNeighbours_inside hp hq
      rw [hm _ hqx _ hqy]
    rw [markAt_hystVisit, markAt_hystVisit, hm _ hx _ hy, hany]
  · rw [markAt_congr free w (hystVisit_read free w e), markAt_congr free' w (hystVisit_read free' w e), hm x hx y hy]

theorem SameMarks.pass (hm : SameMarks free free' w h m m') :
    SameMarks free free' w h (hystPass free w h m) (hystPass free' w h m') := by
  unfold hystPass
  have hl : ∀ p ∈ interiorRaster w h, isInterior w h p.1 p.2 := fun p hp => mem_interiorRaster.1 hp
  generalize interiorRaster w h = l at hl
  induction l generalizing m m' with
  | nil => exact hm
  | cons p l ih => exact ih (hm.visit (hl p (by simp))) fun q hq => hl q (by simp [hq])

end

theorem elementAt_edge (s : State) (x y : Nat) :
    elementAt s .edge x y = markAt (Config.unwritten s.epoch (.plane .edge)) (frameW s) s.edge x y := rfl

theorem SameFrame.edge {s s' t t' : State} (h : SameFrame s s') (hp : SamePlane (frameW s) (frameH s) s s' .edge)
    (hx : exec .hyst s = .next t) (hx' : exec .hyst s' = .next t') : SamePlane (frameW s) (frameH s) t t' .edge := by
  rw [exec_hyst (exec_fits (by decide) hx)] at hx
  rw [exec_hyst (exec_fits (by decide) hx')] at hx'
  cases hx
  cases hx'
  have hm : SameMarks (Config.unwritten s.epoch (.plane .edge)) (Config.unwritten s'.epoch (.plane .edge))
      (frameW s) (frameH s) s.edge s'.edge := fun x hxw y hyh => by
    rw [← elementAt_edge, hp x hxw y hyh, elementAt_edge, h.width]
  intro x hxw y hyh
  refine (hm.pass x hxw y hyh).trans ?_
  rw [h.width, h.height]
  rfl

/-! ### What the publishing micro-ops make of equal frames -/

section
variable {s s' : State} {k : Nat}

theorem SameFrame.copy (h : SameFrame s s') (hk : k < 4 * frameN s) : byteOf (srcAt s k) = byteOf (srcAt s' k) := by
  rw [h.bytes k hk]

/-- The bytes of a gray image depend on its values and alphas at the pixels of the frame only. -/
theorem grayPixelByte_congr {n : Nat} {v v' a a' : Nat → Nat} (hv : ∀ i < n, v i = v' i) (ha : ∀ i < n, a i = a' i)
    (hk : k < 4 * n) : grayPixelByte v a k = grayPixelByte v' a' k := by
  rw [grayPixelByte, grayPixelByte, hv _ (by omega), ha _ (by omega)]

/-- BLUR2D samples only pixels of the frame, through the clamp (42_gaussian.md R150). -/
theorem SameFrame.blur2d (h : SameFrame s s') (hw : 1 ≤ frameW s) (hh : 1 ≤ frameH s) (r x y : Nat) {c : Nat} (hc : c < 4) :
    blur2dAt s r x y c = blur2dAt s' r x y c := by
  have sample (a b : Int) : pxClamped s a b c = pxClamped s' a b c := by
    rw [pxClamped, pxClamped, clampc_eq_nearestIn, clampc_eq_nearestIn, clampc_eq_nearestIn, clampc_eq_nearestIn, ← h.width,
      ← h.height]
    exact h.px (nearestIn_lt hw a) (nearestIn_lt hh b) hc
  simp only [blur2dAt, sample]

end

/-! ### The registers, and the planes the micro-ops pass on -/

/-- The registers of a state: its memories, `upc`, the count of resets and the port's read data left out. -/
def registersOf (s : State) : State := { s with
  upc := 0, src := [], dst := [], luma := [], tmp := [], blur := [], mag := [], dir := [], sup := [], edge := []
  epoch := 0, answer := none }

/-- The planes a micro-op reads (20_memory.md R61). -/
def planesRead : Instr → List Plane
  | .hblur => [.luma]
  | .vblur => [.tmp]
  | .sobel => [.blur]
  | .nms => [.mag, .dir]
  | .dthr => [.sup]
  | .hyst | .expand => [.edge]
  | _ => []

/-- The planes a micro-op writes (20_memory.md R61). -/
def planesWritten : Instr → List Plane
  | .luma => [.luma]
  | .hblur => [.tmp]
  | .vblur => [.blur]
  | .sobel => [.mag, .dir]
  | .nms => [.sup]
  | .dthr | .hyst => [.edge]
  | _ => []

/-- The planes that the micro-op at an index of UROM reads. -/
def planesReadAt (u : Upc) : List Plane := ((programOps.getD u.toNat none).map planesRead).getD []

theorem planesReadAt_of_decode {u : Upc} {i : Instr} (h : decode (urom u) = .op i) : planesReadAt u = planesRead i := by
  rw [planesReadAt, programOps_of_decode h]
  rfl

/-- A micro-op reads only planes that the one before it has written. -/
theorem planesReadAt_succ {u : Upc} {i : Instr} (h : decode (urom u) = .op i) :
    ∀ p ∈ planesReadAt (u + 1), p ∈ planesWritten i := by
  revert u
  cases i <;> decide

theorem planesWritten_dstWriter {i : Instr} (h : i ∈ dstWriters) : planesWritten i = [] := by
  revert i
  decide

/-- The first micro-op of a program reads no plane. -/
theorem planesReadAt_entry {u : Upc} (h : u.toNat ∈ EntryIndices) : planesReadAt u = [] := by
  revert u
  decide

/-! ### The relation -/

/-- Two machines alike: the same registers, the same frame, the same output as far as the descriptor goes, and while BUSY the
same position and the same planes as far as the next micro-op reads them. Both are alone. -/
structure Alike (s s' : State) : Prop where
  registers : registersOf s = registersOf s'
  silent : s.inputs = []
  upc : s.phase = .busy → s.upc = s'.upc
  src : ∀ i < s.srcLen.toNat, srcAt s i = srcAt s' i
  dst : ∀ i < s.dstLen.toNat, dstAt s i = dstAt s' i
  planes : s.phase = .busy → ∀ p ∈ planesReadAt s.upc, SamePlane (frameW s) (frameH s) s s' p

section
variable {s s' t t' : State} {i : Instr}

/-- What depends on the registers only is the same in both. -/
theorem Alike.same {A : Type} (ha : Alike s s') {f : State → A} (hf : ∀ r, f r = f (registersOf r)) : f s = f s' :=
  (hf s).trans ((congrArg f ha.registers).trans (hf s').symm)

theorem Alike.phase (ha : Alike s s') : s.phase = s'.phase := ha.same fun _ => rfl

theorem Alike.silent' (ha : Alike s s') : s'.inputs = [] :=
  (ha.same (f := State.inputs) fun _ => rfl).symm.trans ha.silent

/-- Behind CHECK the bytes of SRC that the descriptor announces are those of the frame. -/
theorem Alike.sameFrame (ha : Alike s s') (hf : FrameChecked s) : SameFrame s s' := by
  obtain ⟨-, -, -, hl, -⟩ := hf
  exact ⟨ha.same fun _ => rfl, ha.same fun _ => rfl, hl ▸ ha.src⟩

theorem Alike.trap (ha : Alike s s') (c : Cause) (n : Nat) : Alike (trap c n s) (trap c n s') where
  registers := congrArg (Machine.trap c n) ha.registers
  silent := ha.silent
  upc := nofun
  src := ha.src
  dst := ha.dst
  planes := nofun

theorem Alike.halt (ha : Alike s s') : Alike (enterDone s) (enterDone s') where
  registers := congrArg enterDone ha.registers
  silent := ha.silent
  upc := nofun
  src := ha.src
  dst := ha.dst
  planes := nofun

/-- A check finds the same in both machines, and the micro-op behind it reads no plane. -/
theorem Alike.check (ha : Alike s s') (hb : s.phase = .busy) (hd : decode (fetch s) = .op i) (hw : planesWritten i = [])
    {v : State → Option (Cause × Nat)} (hv : ∀ r, v r = v (registersOf r)) : Alike (checked (v s) s) (checked (v s') s') := by
  rw [← ha.same hv]
  unfold checked
  split
  · exact ha.trap _ _
  · exact {
      registers := ha.registers
      silent := ha.silent
      upc := fun _ => congrArg (· + 1) (ha.upc hb)
      src := ha.src
      dst := ha.dst
      planes := fun _ p hp => absurd (planesReadAt_succ hd p hp) (hw ▸ List.not_mem_nil) }

/-- Equal bytes are published with equal descriptors, and no plane is written. -/
theorem Alike.publish (ha : Alike s s') (h : Invariant s) (hb : s.phase = .busy) (hd : decode (fetch s) = .op i)
    (hi : i ∈ dstWriters) (hn : frameN s ≤ s.params.npixMax) {f f' : Nat → Byte}
    (hx : exec i s = .next (advance (publish f s))) (hx' : exec i s' = .next (advance (publish f' s')))
    (ht : exec i s = .next t) (ht' : exec i s' = .next t') (hf : ∀ k < 4 * frameN s, f k = f' k) : Alike t t' := by
  injection ht.symm.trans hx with e
  injection ht'.symm.trans hx' with e'
  subst e e'
  have hN : frameN s = frameN s' := ha.same fun _ => rfl
  exact {
    registers := ha.same (f := fun r => registersOf (Machine.publish (fun _ => 0) r)) fun _ => rfl
    silent := ha.silent
    upc := fun _ => congrArg (· + 1) (ha.upc hb)
    src := ha.src
    dst := fun k hk => by
      have hk : k < 4 * frameN s := by simpa [toReg_frame_bytes h.params hn] using hk
      simp only [dstAt, advance_dst, publish_dst, Memory.readOr_fill]
      rw [if_pos hk, if_pos (hN ▸ hk), hf k hk]
    planes := fun _ p hp => absurd (planesReadAt_succ hd p hp) (planesWritten_dstWriter hi ▸ List.not_mem_nil) }

/-- Planes written alike. -/
theorem Alike.writePlanes (ha : Alike s s') (hb : s.phase = .busy) (hd : decode (fetch s) = .op i) (hi : i ∈ planeWriters)
    (hx : exec i s = .next t) (hx' : exec i s' = .next t')
    (hp : ∀ p ∈ planesWritten i, SamePlane (frameW s) (frameH s) t t' p) : Alike t t' := by
  have e := planeWriter_next hi hx
  have e' := planeWriter_next hi hx'
  have hregs : registersOf t = registersOf s ∧ registersOf t' = registersOf s' := by
    rw [e, e']
    exact ⟨rfl, rfl⟩
  have hu : t.upc = s.upc + 1 := by rw [e]
  have hsize : frameW t = frameW s ∧ frameH t = frameH s := by
    rw [e]
    exact ⟨rfl, rfl⟩
  exact {
    registers := hregs.1.trans (ha.registers.trans hregs.2.symm)
    silent := by rw [e]; exact ha.silent
    upc := fun _ => by rw [e, e']; exact congrArg (· + 1) (ha.upc hb)
    src := by rw [e, e']; exact ha.src
    dst := by rw [e, e']; exact ha.dst
    planes := fun _ p hr => by
      rw [hu] at hr
      rw [hsize.1, hsize.2]
      exact hp p (planesReadAt_succ hd p hr) }

/-- A micro-op keeps two machines alike: it reads only what they share. -/
theorem Alike.exec (ha : Alike s s') (h : Invariant s) (hb : s.phase = .busy) (hd : decode (fetch s) = .op i)
    (hx : exec i s = .next t) (hx' : exec i s' = .next t') : Alike t t' := by
  have shared : ∀ p ∈ planesRead i, SamePlane (frameW s) (frameH s) s s' p := by
    rw [← planesReadAt_of_decode hd]
    exact ha.planes hb
  by_cases hdp : i ∈ dstWriters ++ planeWriters
  · have hc := h.frameAt hb hd hdp
    have hf := ha.sameFrame hc
    obtain ⟨hw, hh, hn, -⟩ := hc
    have hn' : frameN s' ≤ s'.params.npixMax := exec_fits hdp hx'
    cases i with
    | halt | check | chkrad | chkthr => simp [dstWriters, planeWriters] at hdp
    | copy => exact ha.publish h hb hd (by decide) hn (exec_copy hn) (exec_copy hn') hx hx' fun k hk => hf.copy hk
    | grayf =>
      exact ha.publish h hb hd (by decide) hn (exec_grayf hn) (exec_grayf hn') hx hx' fun k hk =>
        grayPixelByte_congr (fun i hi => hf.lumaOfPixel hi) (fun i hi => hf.bytes _ (by omega)) hk
    | thresh =>
      have ht : s.thresholdValue = s'.thresholdValue := ha.same fun _ => rfl
      exact ha.publish h hb hd (by decide) hn (exec_thresh hn) (exec_thresh hn') hx hx' fun k hk =>
        grayPixelByte_congr (fun i hi => by rw [hf.lumaOfPixel hi, ht]) (fun i hi => hf.bytes _ (by omega)) hk
    | blur2d =>
      have hr : s.blurRadius = s'.blurRadius := ha.same fun _ => rfl
      exact ha.publish h hb hd (by decide) hn (exec_blur2d hn (execBlur2d_next hx)) (exec_blur2d hn' (execBlur2d_next hx'))
        hx hx' fun k hk => by rw [hf.blur2d hw hh _ _ _ (Nat.mod_lt _ (by decide)), hr, hf.width]
    | expand =>
      refine ha.publish h hb hd (by decide) hn (exec_expand hn) (exec_expand hn') hx hx' fun k hk =>
        grayPixelByte_congr (fun i hi => ?_) (fun i hi => rfl) hk
      obtain ⟨x, hxw, y, hyh, rfl⟩ := index_cases hi
      have := shared .edge (by decide) x hxw y hyh
      rwa [elementAt_eq, elementAt_eq, ← hf.width] at this
    | luma => exact ha.writePlanes hb hd (by decide) hx hx' (by simpa [planesWritten] using hf.luma hx hx')
    | hblur =>
      exact ha.writePlanes hb hd (by decide) hx hx'
        (by simpa [planesWritten] using hf.tmp (shared _ (by decide)) hx hx')
    | vblur =>
      exact ha.writePlanes hb hd (by decide) hx hx'
        (by simpa [planesWritten] using hf.blur (shared _ (by decide)) hx hx')
    | sobel =>
      exact ha.writePlanes hb hd (by decide) hx hx' (by
        simpa [planesWritten] using ⟨hf.mag (shared _ (by decide)) hx hx', hf.dir (shared _ (by decide)) hx hx'⟩)
    | nms =>
      exact ha.writePlanes hb hd (by decide) hx hx'
        (by simpa [planesWritten] using hf.sup (shared _ (by decide)) (shared _ (by decide)) hx hx')
    | dthr =>
      exact ha.writePlanes hb hd (by decide) hx hx' (by
        simpa [planesWritten] using hf.marks (shared _ (by decide)) (ha.same fun _ => rfl) (ha.same fun _ => rfl) hx hx')
    | hyst =>
      exact ha.writePlanes hb hd (by decide) hx hx'
        (by simpa [planesWritten] using hf.edge (shared _ (by decide)) hx hx')
  · cases i with
    | halt => cases hx; cases hx'; exact ha.halt
    | check => cases hx; cases hx'; exact ha.check hb hd rfl fun _ => rfl
    | chkrad => cases hx; cases hx'; exact ha.check hb hd rfl fun _ => rfl
    | chkthr => cases hx; cases hx'; exact ha.check hb hd rfl fun _ => rfl
    | _ => simp [dstWriters, planeWriters] at hdp

/-! ### Steps and runs -/

/-- A step of two machines alike: both answer, they stay alike, and `upc` counts the steps while they are BUSY. -/
theorem Alike.step (ha : Alike s s') (h : Invariant s) (h' : Invariant s') :
    ∃ t t', step s = .next t ∧ step s' = .next t' ∧ Alike t t' ∧ Invariant t ∧ Invariant t' ∧
      (t.phase = .busy → s.phase = .busy ∧ t.upc = s.upc + 1 ∧ selectedEntry t = selectedEntry s) := by
  by_cases hb : s.phase = .busy
  · have hb' : s'.phase = .busy := ha.phase ▸ hb
    obtain ⟨i, t, hd, hx⟩ := h.fetch_answers hb
    obtain ⟨j, t', hd', hx'⟩ := h'.fetch_answers hb'
    have hij : i = j := by
      rw [fetch, ha.upc hb] at hd
      rw [fetch, hd] at hd'
      injection hd'
    subst hij
    have hs := step_exec i ha.silent hb hd hx
    have hs' := step_exec i ha.silent' hb' hd' hx'
    exact ⟨t, t', hs, hs', ha.exec h hb hd hx hx', stepKeepsInvariant _ _ h hs, stepKeepsInvariant _ _ h' hs',
      fun ht => ⟨hb, (microStep_of_exec hx).advances ht⟩⟩
  · have hb' : s'.phase ≠ .busy := ha.phase ▸ hb
    exact ⟨s, s', (step_silent ha.silent).trans (sequencerTurn_idle hb _),
      (step_silent ha.silent').trans (sequencerTurn_idle hb' _), ha, h, h', fun ht => absurd ht hb⟩

/-- A run of two machines alike, by the number of steps; `j` steps behind the entry of the selected program at its start. -/
theorem Alike.run (k : Nat) : ∀ {s s' : State} {j : Nat}, Alike s s' → Invariant s → Invariant s' →
    (s.phase = .busy → s.upc.toNat = selectedEntry s + j) →
    ∃ t t', Sys2Proof.core.run k s = .next t ∧ Sys2Proof.core.run k s' = .next t' ∧ Alike t t' ∧ Invariant t ∧
      (t.phase = .busy → t.upc.toNat = selectedEntry t + (j + k)) := by
  induction k with
  | zero => exact fun {s s' j} ha h h' hj => ⟨s, s', rfl, rfl, ha, h, hj⟩
  | succ k ih =>
    intro s s' j ha h h' hj
    obtain ⟨t, t', hs, hs', hat, ht, ht', hup⟩ := ha.step h h'
    have hj' : t.phase = .busy → t.upc.toNat = selectedEntry t + (j + 1) := fun hb => by
      obtain ⟨hsb, hu, he⟩ := hup hb
      rw [hu, upc_succ (h.busy hsb).2.position.1, hj hsb, he]
      omega
    obtain ⟨u, u', hr, hr', hau, hiu, hju⟩ := ih hat ht ht' hj'
    exact ⟨u, u', (run_succ hs k).trans hr, (run_succ hs' k).trans hr', hau, hiu, fun hb => by rw [hju hb]; omega⟩

/-- Eleven steps behind its entry an invocation has ended (40_sequencer_control.md R118). -/
theorem ended_of_upc (h : Invariant s) (hj : s.phase = .busy → s.upc.toNat = selectedEntry s + 11) : s.phase ≠ .busy :=
  fun hb => by
    have := (h.busy hb).2.upc_le
    have := hj hb
    omega

/-- The host's view of DST is the same in two machines alike (45_host_interface.md R216). -/
theorem Alike.dstRead (ha : Alike s s') (i : Nat) : dstRead s' i = dstRead s i := by
  have hv : dstValid s = dstValid s' := ha.same fun _ => rfl
  have hl : s.dstLen = s'.dstLen := ha.same fun _ => rfl
  have hp : s.params = s'.params := ha.same fun _ => rfl
  rw [Machine.dstRead, Machine.dstRead, ← hv, ← hl, ← hp]
  split
  · rw [ha.dst i (by tauto)]
  · rfl

end

/-! ### START -/

section
variable {s s' : State}

/-- START makes machines alike that share the options and the input, whatever else they hold (40_sequencer_control.md R111). -/
theorem alike_startCommand (hb : s.phase ≠ .busy) (hb' : s'.phase ≠ .busy) (hi : s.inputs = [])
    (hr : registersOf { clearRecord s with phase := .idle } = registersOf { clearRecord s' with phase := .idle })
    (hsrc : ∀ i < s.srcLen.toNat, srcAt s i = srcAt s' i) : Alike (startCommand s) (startCommand s') := by
  have hv : startViolation s = startViolation s' := (congrArg startViolation hr :)
  have hp : selectedProgram s = selectedProgram s' := (congrArg selectedProgram hr :)
  rw [startCommand_eq hb, startCommand_eq hb', ← hv]
  cases hs : startViolation s with
  | some v => exact {
      registers := (congrArg (trap v.1 v.2) hr :)
      silent := hi
      upc := nofun
      src := hsrc
      dst := fun i h => absurd h (Nat.not_lt_zero i)
      planes := nofun }
  | none =>
    have hk := (entry_select _ (selectedProgram_le (options_of_startViolation hs).1)).2
    exact {
      registers := (congrArg (fun r => { r with phase := .busy }) hr :)
      silent := hi
      upc := fun _ => congrArg entry hp
      src := hsrc
      dst := fun i h => absurd h (Nat.not_lt_zero i)
      planes := fun _ p hm => absurd hm (planesReadAt_entry hk ▸ List.not_mem_nil) }

/-- START enters a program at its entry. -/
theorem upc_startCommand (hb : s.phase ≠ .busy) (h : (startCommand s).phase = .busy) :
    (startCommand s).upc.toNat = selectedEntry (startCommand s) := by
  rw [startCommand_eq hb] at h ⊢
  cases hs : startViolation s with
  | some v => rw [hs] at h; cases h
  | none =>
    have h4 := selectedProgram_le (options_of_startViolation hs).1
    refine Eq.trans ?_ (selectedEntry_eq s).symm
    exact Nat.mod_eq_of_lt (by omega)

/-- A write of 1 to CTRL is START. -/
theorem step_start (hb : s.phase ≠ .busy) (hi : s.inputs = [.host (.wr 0 1)]) :
    step s = .next (startCommand { s with inputs := [] }) := by
  rw [step_host hi]
  simp [transact, regWrite, ctrlWrite, hb]

end

/-- Settles O60: START makes the two machines alike, eleven steps keep them alike, and by then both have ended. -/
theorem outputDependsOnInputAlone : Obligations.OutputDependsOnInputAlone := by
  unfold Obligations.OutputDependsOnInputAlone
  intro s s' h h' hb hb' hi hi' e1 e2 e3 e4 e5 e6 e7 e8 e9 e10 hsrc
  have ha : Alike (startCommand { s with inputs := [] }) (startCommand { s' with inputs := [] }) :=
    alike_startCommand hb hb' rfl (by simp only [registersOf, clearRecord, e1, e2, e3, e4, e5, e6, e7, e8, e9, e10]) hsrc
  obtain ⟨t, t', hr, hr', hat, hit, hj⟩ := ha.run 11 (j := 0) (h.withInputs []).start (h'.withInputs []).start
    (upc_startCommand hb)
  exact ⟨t, t', (run_succ (step_start hb hi) 11).trans hr, (run_succ (step_start hb' hi') 11).trans hr',
    ended_of_upc hit hj, hat.phase.symm, (hat.same fun _ => rfl : t.errCode = t'.errCode).symm,
    (hat.same fun _ => rfl : t.errInfo = t'.errInfo).symm, (hat.same fun _ => rfl : t.dstWidth = t'.dstWidth).symm,
    (hat.same fun _ => rfl : t.dstHeight = t'.dstHeight).symm, (hat.same fun _ => rfl : t.dstLen = t'.dstLen).symm,
    hat.dstRead⟩

end Sys2Proof.Machine
end

section
/-! PROOFS. The spaces of the micro-ops: canonical memories, what a micro-op leaves alone, and where the model stops
(20_memory.md R60, R61, R66). -/

namespace Sys2Proof.Machine

/-! ### Canonical memories (20_memory.md R60) -/

/-- The entries of a canonical memory are exactly what its addresses read as. -/
theorem Memory.mem_iff_read {w : Nat} {m : Memory w} (h : m.wf) (c : Nat × BitVec w) :
    c ∈ m ↔ m.read c.1 = some c.2 :=
  ⟨Memory.read_of_mem h, Memory.mem_of_read⟩

/-- No address, and so no entry, is listed twice. -/
theorem Memory.nodup_of_wf {w : Nat} {m : Memory w} (h : m.wf) : m.Nodup :=
  h.imp fun hlt e => by simp [e] at hlt

/-- Settles O50: memories that read alike list the same entries, and strictly rising lists of the same entries are equal. -/
theorem canonicalMemoryUnique : Obligations.CanonicalMemoryUnique := by
  unfold Obligations.CanonicalMemoryUnique
  intro w m m' h h' hr
  have same (c : Nat × BitVec w) : c ∈ m ↔ c ∈ m' := by
    rw [Memory.mem_iff_read h, Memory.mem_iff_read h', hr]
  have perm : m.Perm m' :=
    (List.perm_ext_iff_of_nodup (Memory.nodup_of_wf h) (Memory.nodup_of_wf h')).2 same
  exact perm.eq_of_pairwise (fun _ _ _ _ hlt hgt => absurd hlt (Nat.lt_asymm hgt)) h h'

/-! ### What a micro-op leaves alone (20_memory.md R61, 70_reset_and_hazards.md R268) -/

/-- Settles O38: by what a micro-op has done. A trap, HALT and a check touch registers of the core only, a published output DST
and its descriptor only, and a plane writer planes only. -/
theorem microOpsReachOnlyTheirSpaces : Obligations.MicroOpsReachOnlyTheirSpaces := by
  unfold Obligations.MicroOpsReachOnlyTheirSpaces
  intro i s t h
  cases microStep_of_exec h with
  | trapped | halted | frame | radius | thresholds => simp
  | published hi f => simp [hi]
  | planes hi h =>
    rw [planeWriter_next hi h]
    simp [hi]

/-! ### Where the model stops (20_memory.md R66, 10_state.md R36) -/

/-- A datapath micro-op stops on a frame beyond the planes, whatever it would run. -/
theorem datapath_of_beyond (f : State → State) {s : State} (h : s.params.npixMax < frameN s) :
    datapath f s = .fault .frameBeyondPlanes := if_neg (Nat.not_le.2 h)

/-- BLUR2D stops on a radius beyond the coefficient ROM, whatever the frame. -/
theorem execBlur2d_of_beyond {s : State} (h : s.params.rmax < s.blurRadius.toNat) :
    execBlur2d s = .fault .radiusBeyondRom := if_pos h

/-- Every writer of DST or of a plane is a datapath micro-op, BLUR2D where the ROM holds its radius. -/
theorem exec_eq_datapath {i : Instr} {s : State} (hi : i ∈ dstWriters ++ planeWriters)
    (hr : i = .blur2d → s.blurRadius.toNat ≤ s.params.rmax) : ∃ f, exec i s = datapath f s := by
  cases i with
  | halt | check | chkrad | chkthr => simp [dstWriters, planeWriters] at hi
  | blur2d => exact ⟨_, execBlur2d_of_radius (hr rfl)⟩
  | copy | grayf | thresh | expand => exact ⟨_, rfl⟩
  | luma | hblur | vblur | sobel | nms | dthr | hyst =>
    simp only [exec, execLuma, execHblur, execVblur, execSobel, execNms, execDthr, execHyst]
    exact ⟨_, rfl⟩

/-- HALT and the checks always answer a next state. -/
theorem exec_answers_of_not_datapath {i : Instr} (hi : i ∉ dstWriters ++ planeWriters) (s : State) :
    ∃ t, exec i s = .next t := by
  cases i with
  | halt | check | chkrad | chkthr => exact ⟨_, rfl⟩
  | _ => simp [dstWriters, planeWriters] at hi

/-- Settles O40: the two stops are the two guards of the datapath form and of BLUR2D. -/
theorem stopsOnlyOutsideTheSpaces : Obligations.StopsOnlyOutsideTheSpaces := by
  unfold Obligations.StopsOnlyOutsideTheSpaces
  refine ⟨fun i hi s hf hr => ?_, fun s hr => execBlur2d_of_beyond hr, fun i hi s => exec_answers_of_not_datapath hi s⟩
  obtain ⟨f, hx⟩ := exec_eq_datapath hi fun _ => hr
  rw [hx, datapath_of_beyond f hf]

end Sys2Proof.Machine
end

section
/-! PROOFS. The decoder and the encoder are inverse to each other (30_encoding.md R93, R99). -/

namespace Sys2Proof

/-- Decoding a micro-op's word gives the micro-op. -/
theorem decode_encode (i : Instr) : decode (encode i) = .op i := by
  cases i <;> rfl

/-- A word is its group and its function (30_encoding.md R91). -/
theorem toNat_eq_fields (w : Byte) : w.toNat = 16 * fieldGrp w + fieldFn w := by
  simp only [fieldGrp, fieldFn, BitVec.extractLsb'_toNat, Nat.shiftRight_eq_div_pow]
  omega

/-- A word with a micro-op's group and function is its word. -/
theorem eq_encode {w : Byte} {g f : Nat} {i : Instr} (hg : fieldGrp w = g) (hf : fieldFn w = f)
    (hi : (encode i).toNat = 16 * g + f) : w = encode i :=
  BitVec.eq_of_toNat_eq (by rw [toNat_eq_fields, hg, hf, hi])

/-- What decodes to a micro-op is its word: the rows of R93 one by one. -/
theorem eq_encode_of_decode {w : Byte} {i : Instr} (h : decode w = .op i) : w = encode i := by
  unfold decode at h
  split at h
  case h_17 => cases h
  all_goals
    injection h with h
    subst h
    exact eq_encode ‹fieldGrp w = _› ‹fieldFn w = _› rfl

/-- "Illegal" comes with the word itself (30_encoding.md R94). -/
theorem eq_of_decode_illegal {w v : Byte} (h : decode w = .illegal v) : v = w := by
  unfold decode at h
  split at h
  case h_17 => injection h with h; exact h.symm
  all_goals cases h

/-- Settles O1: each printed word is what the encoder answers for its micro-op. -/
theorem sixteenWordsDecode : Obligations.SixteenWordsDecode := by
  unfold Obligations.SixteenWordsDecode
  exact ⟨decode_encode .halt, decode_encode .check, decode_encode .chkrad, decode_encode .chkthr, decode_encode .copy,
    decode_encode .grayf, decode_encode .thresh, decode_encode .luma, decode_encode .expand, decode_encode .blur2d,
    decode_encode .hblur, decode_encode .vblur, decode_encode .sobel, decode_encode .nms, decode_encode .dthr,
    decode_encode .hyst⟩

/-- Settles O2: what decodes to a micro-op is its word; an illegal byte is no word, since a word decodes to its micro-op. -/
theorem decoderTotalAndInvertsEncoder : Obligations.DecoderTotalAndInvertsEncoder := by
  unfold Obligations.DecoderTotalAndInvertsEncoder
  refine ⟨fun w => ?_, fun i _ => decode_encode i⟩
  cases h : decode w with
  | op i => exact .inl ⟨i, eq_encode_of_decode h, rfl⟩
  | illegal v =>
    refine .inr ⟨fun i e => ?_, by rw [eq_of_decode_illegal h]⟩
    rw [e, decode_encode] at h
    cases h

end Sys2Proof
end

section
/-! PROOFS. A whole invocation, from START to DONE: its entry, its checks, its stages and its output (30_encoding.md R97). -/

namespace Sys2Proof.Machine

/-! ### START and the checks, where no test fires -/

section
variable {s : State}

theorem startViolation_eq_none (h4 : s.filterType.toNat ≤ 4) (h1 : s.enabled.toNat ≤ 1) : startViolation s = none :=
  (if_neg (by omega)).trans (if_neg (by omega))

/-- START with valid options enters the selected program (40_sequencer_control.md R111). -/
theorem step_enterProgram (hb : s.phase ≠ .busy) (hi : s.inputs = [.host (.wr 0 1)]) (h4 : s.filterType.toNat ≤ 4)
    (h1 : s.enabled.toNat ≤ 1) : step s = .next (enterProgram { s with inputs := [] }) := by
  rw [step_start hb hi, startCommand_eq (s := { s with inputs := [] }) hb,
    startViolation_eq_none (s := { s with inputs := [] }) h4 h1, Option.elim_none]

theorem frameViolation_eq_none (h : FrameChecked s) : frameViolation s = none := by
  obtain ⟨hw, hh, hn, hl, hlo, hhi, ht⟩ := h
  unfold frameN at hn hl
  unfold frameViolation
  rw [if_neg (by omega), if_neg (by omega), if_neg (by omega), if_neg (by omega), if_neg (by omega), if_neg (by omega),
    if_neg (by omega)]

/-- CHECK passes on a valid frame (40_sequencer_control.md R113). -/
theorem exec_check (h : FrameChecked s) : exec .check s = .next (advance s) := by
  rw [exec, execCheck, frameViolation_eq_none h, checked]

/-- CHKTHR passes on ordered thresholds (40_sequencer_control.md R115). -/
theorem exec_chkthr (h : s.lowThreshold.toNat ≤ s.highThreshold.toNat) : exec .chkthr s = .next (advance s) := by
  have hv : thresholdViolation s = none := if_neg (by omega)
  rw [exec, execChkthr, hv, checked]

end

/-! ### What a micro-op leaves of the planes -/

/-- A micro-op leaves every plane alone that it does not write (20_memory.md R61). -/
theorem elementAt_unwritten {i : Instr} {s t : State} (h : exec i s = .next t) {p : Plane} (hp : p ∉ planesWritten i) :
    elementAt t p = elementAt s p := by
  cases microStep_of_exec h with
  | trapped | halted | frame | radius | thresholds | published => cases p <;> rfl
  | planes hi h =>
    have hf := exec_fits (List.mem_append_right _ hi) h
    cases i with
    | luma => rw [exec_luma hf] at h; cases h; cases p <;> simp [planesWritten] at hp <;> rfl
    | hblur => rw [exec_hblur hf] at h; cases h; cases p <;> simp [planesWritten] at hp <;> rfl
    | vblur => rw [exec_vblur hf] at h; cases h; cases p <;> simp [planesWritten] at hp <;> rfl
    | sobel => rw [exec_sobel hf] at h; cases h; cases p <;> simp [planesWritten] at hp <;> rfl
    | nms => rw [exec_nms hf] at h; cases h; cases p <;> simp [planesWritten] at hp <;> rfl
    | dthr => rw [exec_dthr hf] at h; cases h; cases p <;> simp [planesWritten] at hp <;> rfl
    | hyst => rw [exec_hyst hf] at h; cases h; cases p <;> simp [planesWritten] at hp <;> rfl
    | _ => simp [planeWriters] at hi

/-! ### Inside a program -/

section
variable {e r t : State} {u : Upc} {i : Instr}

/-- An invocation that stood at `e` has come to `upc = u` and state `r`, and only `upc` and the planes have changed. -/
def Underway (e : State) (u : Upc) (r : State) : Prop := r = { e with
  upc := u, luma := r.luma, tmp := r.tmp, blur := r.blur, mag := r.mag, dir := r.dir, sup := r.sup, edge := r.edge }

/-- START brings an invocation to the entry of its program (30_encoding.md R98). -/
theorem Underway.entered {s : State} {n : Nat} (h : selectedProgram s = n) :
    Underway (enterProgram s) (entry n) (enterProgram s) := h ▸ rfl

theorem Underway.upc (h : Underway e u r) : r.upc = u := (congrArg State.upc h :)
theorem Underway.phase (h : Underway e u r) : r.phase = e.phase := (congrArg State.phase h :)
theorem Underway.inputs (h : Underway e u r) : r.inputs = e.inputs := (congrArg State.inputs h :)
theorem Underway.params (h : Underway e u r) : r.params = e.params := (congrArg State.params h :)
theorem Underway.errCode (h : Underway e u r) : r.errCode = e.errCode := (congrArg State.errCode h :)
theorem Underway.src (h : Underway e u r) : r.src = e.src := (congrArg State.src h :)
theorem Underway.srcWidth (h : Underway e u r) : r.srcWidth = e.srcWidth := (congrArg State.srcWidth h :)
theorem Underway.srcHeight (h : Underway e u r) : r.srcHeight = e.srcHeight := (congrArg State.srcHeight h :)
theorem Underway.lowThreshold (h : Underway e u r) : r.lowThreshold = e.lowThreshold := (congrArg State.lowThreshold h :)
theorem Underway.highThreshold (h : Underway e u r) : r.highThreshold = e.highThreshold := (congrArg State.highThreshold h :)
theorem Underway.width (h : Underway e u r) : frameW r = frameW e := (congrArg frameW h :)
theorem Underway.height (h : Underway e u r) : frameH r = frameH e := (congrArg frameH h :)
theorem Underway.size (h : Underway e u r) : frameN r = frameN e := (congrArg frameN h :)
theorem Underway.samples (h : Underway e u r) : px r = px e := (congrArg px h :)

/-- A check that passes changes nothing but `upc`. -/
theorem Underway.passes (h : Underway e u r) : Underway e (u + 1) (advance r) := by
  unfold Underway at h ⊢
  rw [h]
  rfl

/-- A plane writer changes nothing but `upc` and planes. -/
theorem Underway.planes (h : Underway e u r) (hx : exec i r = .next t) (hi : i ∈ planeWriters := by decide) :
    Underway e (u + 1) t := by
  refine (planeWriter_next hi hx).trans ?_
  unfold Underway at h
  rw [h]

/-- A step of an invocation under way runs the micro-op at `upc`. -/
theorem Underway.run (h : Underway e u r) (hb : e.phase = .busy) (hs : e.inputs = []) (hd : decode (urom u) = .op i)
    (hx : exec i r = .next t) (k : Nat) : Sys2Proof.core.run (k + 1) r = Sys2Proof.core.run k t :=
  run_succ (step_exec i (h.inputs.trans hs) (h.phase.trans hb) (h.upc ▸ hd) hx) k

/-- At a plane writer an invocation under way always goes on, to a state the micro-op answers. -/
theorem Underway.stage (h : Underway e u r) (hb : e.phase = .busy) (hs : e.inputs = [])
    (hf : frameN e ≤ e.params.npixMax) (i : Instr) (hd : decode (urom u) = .op i) (hi : i ∈ planeWriters := by decide) :
    ∃ t, exec i r = .next t ∧ Underway e (u + 1) t ∧ ∀ k, Sys2Proof.core.run (k + 1) r = Sys2Proof.core.run k t := by
  have hr : frameN r ≤ r.params.npixMax := by rwa [h.size, h.params]
  have hne : i ≠ .blur2d := by rintro rfl; simp [planeWriters] at hi
  obtain ⟨t, hx⟩ := datapath_answers (List.mem_append_right _ hi) hr (absurd · hne)
  exact ⟨t, hx, h.planes hx hi, h.run hb hs hd hx⟩

end

/-! ### The output -/

section
variable {e r : State} {u : Upc} {i : Instr} {f : Nat → Byte}

/-- What is left when a program publishes the bytes `f` at state `r` and halts. -/
def completed (f : Nat → Byte) (r : State) : State := enterDone (advance (publish f r))

/-- The last two steps of a program: the micro-op that publishes the output, and HALT. -/
theorem Underway.completes (h : Underway e u r) (hb : e.phase = .busy) (hs : e.inputs = [])
    (hd : decode (urom u) = .op i) (hx : exec i r = .next (advance (publish f r)))
    (hh : decode (urom (u + 1)) = .op .halt) : Sys2Proof.core.run 2 r = .next (completed f r) := by
  have halt : step (advance (publish f r)) = .next (completed f r) :=
    step_exec .halt (h.inputs.trans hs) (h.phase.trans hb) (by rwa [advance_upc, publish_upc, h.upc]) rfl
  rw [h.run hb hs hd hx, run_succ halt]
  rfl

/-- The host reads the published bytes through the DST window (45_host_interface.md R216). -/
theorem dstRead_completed (hw : r.params.wf = true) (hf : frameN r ≤ r.params.npixMax) {k : Nat} (hk : k < 4 * frameN r) :
    dstRead (completed f r) k = BitVec.ofNat 32 (f k).toNat := by
  have hlen : k < (completed f r).dstLen.toNat := by
    change k < (toReg (4 * frameN r)).toNat
    rwa [toReg_frame_bytes hw hf]
  have hcap : k < 4 * r.params.npixMax := by omega
  rw [dstRead, if_pos ⟨rfl, hlen, hcap⟩, completed, dstAt_enterDone, dstAt_advance, dstAt, publish_dst, Memory.readOr_fill,
    if_pos hk]

/-- A completed invocation leaves the input's shape in the descriptor, no error and SRC as it was. -/
theorem Underway.outcome (h : Underway e u r) (hc : FrameChecked e) (f : Nat → Byte) :
    (completed f r).phase = .done ∧ (completed f r).upc = u + 1 ∧ (completed f r).errCode = e.errCode ∧
      (completed f r).dstWidth = e.srcWidth ∧ (completed f r).dstHeight = e.srcHeight ∧
      (completed f r).dstLen = e.srcLen ∧ (completed f r).src = e.src := by
  obtain ⟨-, -, -, hl, -⟩ := hc
  refine ⟨rfl, congrArg (· + 1) h.upc, h.errCode, h.srcWidth, h.srcHeight, ?_, h.src⟩
  change toReg (4 * frameN r) = e.srcLen
  rw [h.size, ← hl, toReg_word]

end

/-! ### The pass-through -/

/-- Settles O57: START, CHECK, COPY, HALT. -/
theorem passThroughInvocation : Obligations.PassThroughInvocation := by
  unfold Obligations.PassThroughInvocation
  intro s hw hb hi hc h4 hen
  have h1 : s.enabled.toNat ≤ 1 := by obtain h | ⟨h, -⟩ := hen <;> simp [h]
  have hentry : selectedProgram s = 0 := by
    unfold selectedProgram
    obtain h | ⟨h, hft⟩ := hen
    · exact if_pos h
    · simp [hft]
  let e := enterProgram { s with inputs := [] }
  have ⟨_, _, hn, _⟩ := hc
  have h0 : Underway e 0 e := .entered (s := { s with inputs := [] }) hentry
  refine ⟨completed (fun k => byteOf (srcAt s k)) (advance e), ?_, ?_⟩
  · rw [run_succ (step_enterProgram hb hi h4 h1), h0.run rfl rfl rfl (exec_check hc)]
    exact h0.passes.completes rfl rfl rfl (exec_copy hn) rfl
  obtain ⟨hph, hu, he, hdw, hdh, hdl, hsrc⟩ := h0.passes.outcome hc fun k => byteOf (srcAt s k)
  refine ⟨hph, hu, he, hdw, hdh, hdl, hsrc, fun k hk => ?_⟩
  rw [dstRead_completed (r := advance e) hw hn hk, byteOf_toNat (srcAt_le s k)]

/-! ### The edge filter -/

/-- The seven stages of the edge program, one after the other, leave the Canny stages in the planes (30_encoding.md R95): each
plane keeps what its stage wrote, EDGE apart, which HYST settles in place. -/
theorem cannyStages_of_exec {e r s1 s2 s3 s4 s5 s6 t : State} {u : Upc} (h0 : Underway e u r)
    (h1 : exec .luma r = .next s1) (h2 : exec .hblur s1 = .next s2)
    (h3 : exec .vblur s2 = .next s3) (h4 : exec .sobel s3 = .next s4) (h5 : exec .nms s4 = .next s5)
    (h6 : exec .dthr s5 = .next s6) (h7 : exec .hyst s6 = .next t) :
    CannyStages (frameW e) (frameH e) e.lowThreshold.toNat e.highThreshold.toNat (px e)
      (elementAt t .luma) (elementAt t .tmp) (elementAt t .blur) (elementAt t .mag) (elementAt t .dir)
      (elementAt t .sup) (elementAt s6 .edge) (elementAt t .edge) := by
  have u1 := h0.planes h1
  have u2 := u1.planes h2
  have u3 := u2.planes h3
  have u4 := u3.planes h4
  have u5 := u4.planes h5
  have u6 := u5.planes h6
  simp (disch := decide) only [elementAt_unwritten h2, elementAt_unwritten h3, elementAt_unwritten h4,
    elementAt_unwritten h5, elementAt_unwritten h6, elementAt_unwritten h7]
  exact {
    luma := fun x hx y hy => by
      rw [elementAt_luma h1 (h0.width ▸ hx) (h0.height ▸ hy), h0.samples, lum]
    rows := fun x hx y hy => by
      rw [elementAt_tmp h2 (u1.width ▸ hx) (u1.height ▸ hy), u1.width]
    columns := fun x hx y hy => by
      rw [elementAt_blur h3 (u2.width ▸ hx) (u2.height ▸ hy), u2.height]
    magnitude := fun x hx y hy => by
      rw [elementAt_mag h4 (u3.width ▸ hx) (u3.height ▸ hy), sobelMag, u3.width, u3.height, blurGradX, blurGradY]
    direction := fun x hx y hy => by
      rw [elementAt_dir h4 (u3.width ▸ hx) (u3.height ▸ hy), sobelDir, u3.width, u3.height, blurGradX, blurGradY]
    suppressed := fun x hx y hy => by
      rw [elementAt_sup h5 (u4.width ▸ hx) (u4.height ▸ hy), nmsAt, u4.width, u4.height]
      simp only [ite_and]
    marked := fun x hx y hy => by
      rw [elementAt_edge_dthr h6 (u5.width ▸ hx) (u5.height ▸ hy), markOf, u5.lowThreshold, u5.highThreshold]
    settled := fun x hx y hy => by
      rw [elementAt_edge_hyst h7 (u6.width ▸ hx), u6.width, u6.height] }

/-- Behind CHECK and CHKTHR the seven stages run to EXPAND and leave the Canny stages in the planes. -/
theorem Underway.edgeStages {e r : State} (h : Underway e 18 r) (hb : e.phase = .busy) (hs : e.inputs = [])
    (hf : frameN e ≤ e.params.npixMax) : ∃ (t : State) (marked : Nat → Nat → Nat), Underway e 25 t ∧
      (∀ k, Sys2Proof.core.run (k + 7) r = Sys2Proof.core.run k t) ∧
      CannyStages (frameW e) (frameH e) e.lowThreshold.toNat e.highThreshold.toNat (px e)
        (elementAt t .luma) (elementAt t .tmp) (elementAt t .blur) (elementAt t .mag) (elementAt t .dir)
        (elementAt t .sup) marked (elementAt t .edge) := by
  obtain ⟨s1, h1, u1, r1⟩ := h.stage hb hs hf .luma rfl
  obtain ⟨s2, h2, u2, r2⟩ := u1.stage hb hs hf .hblur rfl
  obtain ⟨s3, h3, u3, r3⟩ := u2.stage hb hs hf .vblur rfl
  obtain ⟨s4, h4, u4, r4⟩ := u3.stage hb hs hf .sobel rfl
  obtain ⟨s5, h5, u5, r5⟩ := u4.stage hb hs hf .nms rfl
  obtain ⟨s6, h6, u6, r6⟩ := u5.stage hb hs hf .dthr rfl
  obtain ⟨t, h7, u7, r7⟩ := u6.stage hb hs hf .hyst rfl
  refine ⟨t, elementAt s6 .edge, u7, fun k => ?_, cannyStages_of_exec h h1 h2 h3 h4 h5 h6 h7⟩
  rw [r1, r2, r3, r4, r5, r6, r7]

/-- The planes of a completed invocation are those that its output was made from. -/
theorem elementAt_completed (f : Nat → Byte) (r : State) : elementAt (completed f r) = elementAt r := by
  rw [completed, elementAt_enterDone, elementAt_advance, elementAt_publish]

/-- What the host reads of an output that EXPAND has made: the mark of the pixel in its colour channels, 255 in its alpha. -/
theorem dstRead_expanded {r : State} (hw : r.params.wf = true) (hf : frameN r ≤ r.params.npixMax) {x y : Nat}
    (hx : x < frameW r) (hy : y < frameH r) :
    (∀ c < 3, dstRead (completed (grayPixelByte (planeAt r .edge) fun _ => 255) r) (4 * (y * frameW r + x) + c) =
      BitVec.ofNat 32 (elementAt r .edge x y)) ∧
    dstRead (completed (grayPixelByte (planeAt r .edge) fun _ => 255) r) (4 * (y * frameW r + x) + 3) = 255 := by
  have hk : y * frameW r + x < frameN r := index_lt hx hy
  constructor
  · intro c hc
    rw [dstRead_completed hw hf (by omega), grayPixelByte_channel _ _ _ _ hc, byteOf_toNat (planeAt_le _ _ _), elementAt_eq]
  · rw [dstRead_completed hw hf (by omega), grayPixelByte_alpha, byteOf_toNat (Nat.le_refl 255)]
    rfl

/-- Settles O58: START, CHECK, CHKTHR, the seven stages, EXPAND, HALT. -/
theorem edgeInvocationIsCanny : Obligations.EdgeInvocationIsCanny := by
  unfold Obligations.EdgeInvocationIsCanny
  intro s hw hb hi hc hen hft hth
  let e := enterProgram { s with inputs := [] }
  have ⟨_, _, hn, _⟩ := hc
  have hentry : selectedProgram s = 4 := by simp [selectedProgram, hen, hft]
  have h0 : Underway e 16 e := .entered (s := { s with inputs := [] }) hentry
  have h1 : Underway e 17 (advance e) := h0.passes
  obtain ⟨r, marked, hr, hrun, hcanny⟩ := h1.passes.edgeStages rfl rfl hn
  have hrn : frameN r ≤ r.params.npixMax := by rwa [hr.size, hr.params]
  refine ⟨completed (grayPixelByte (planeAt r .edge) fun _ => 255) r, marked, ?_, ?_⟩
  · rw [run_succ (step_enterProgram hb hi (by simp [hft]) (by simp [hen])), h0.run rfl rfl rfl (exec_check hc),
      h1.run rfl rfl rfl (exec_chkthr hth), hrun]
    exact hr.completes rfl rfl rfl (exec_expand hrn) rfl
  obtain ⟨hph, hu, he, hdw, hdh, hdl, hsrc⟩ := hr.outcome hc (grayPixelByte (planeAt r .edge) fun _ => 255)
  refine ⟨hph, hu, he, hdw, hdh, hdl, hsrc, ?_, fun x hx y hy => ?_⟩
  · rw [elementAt_completed]
    exact hcanny
  · have hW : frameW r = frameW s := hr.width
    rw [elementAt_completed, ← hW]
    exact dstRead_expanded (hr.params ▸ hw) hrn (hr.width ▸ hx) (hr.height ▸ hy)

end Sys2Proof.Machine
end

section
/-! PROOFS. The step of the sequencer, illegal words, the checks, HALT and START, each in full (40_sequencer_control.md R110 to
R116). -/

namespace Sys2Proof.Machine

variable {s : State}

/-! ### The record a trap leaves (60_exceptions.md R240) -/

theorem trap_of_lt (c : Cause) {info : Nat} (h : info < 2 ^ 32) (s : State) :
    trap c info s = { s with errCode := causeCode c, errInfo := BitVec.ofNat 32 info, phase := .error } := by
  rw [trap, toReg_of_lt h]

theorem trap_word (c : Cause) (v : Word) (s : State) :
    trap c v.toNat s = { s with errCode := causeCode c, errInfo := v, phase := .error } := by
  rw [trap, toReg_word]

/-! ### The step (40_sequencer_control.md R110, R116) -/

/-- A step of a BUSY core at which nothing goes wrong outside is the micro-op at `upc`. -/
theorem sequencerTurn_op {i : Instr} (hb : s.phase = .busy) (hd : decode (fetch s) = .op i) :
    sequencerTurn false s = exec i s :=
  (sequencerTurn_word hb).trans (execWord_op hd s)

/-- Settles O5: a silent step and a step with `env_fail` low are both a turn of the sequencer. -/
theorem stepRunsDecodedInstruction : Obligations.StepRunsDecodedInstruction := by
  unfold Obligations.StepRunsDecodedInstruction
  intro s i hb hd
  exact ⟨fun hi => (step_silent hi).trans (sequencerTurn_op hb hd),
    fun rest hi => (step_tick hi).trans (sequencerTurn_op (s := { s with inputs := rest }) hb hd)⟩

/-- Settles O7: the sequencer has no turn outside BUSY. -/
theorem sequencerIdleOutsideBusy : Obligations.SequencerIdleOutsideBusy := by
  unfold Obligations.SequencerIdleOutsideBusy
  intro s hb
  exact ⟨fun hi => (step_silent hi).trans (sequencerTurn_idle hb _),
    fun e rest hi => (step_tick hi).trans (sequencerTurn_idle (s := { s with inputs := rest }) hb e)⟩

theorem decode_of_ne_encode {w : Byte} (h : ∀ i, w ≠ encode i) : decode w = .illegal w := by
  cases hd : decode w with
  | op i => exact absurd (eq_encode_of_decode hd) (h i)
  | illegal v => rw [eq_of_decode_illegal hd]

theorem execWord_illegal {w : Byte} (h : decode w = .illegal w) (s : State) :
    execWord w s = .next (trap .illegalUop w.toNat s) := by
  simp only [execWord, h]

/-- Settles O3: a word that encodes nothing decodes as illegal, and a running invocation stands at a micro-op. -/
theorem illegalWordTraps : Obligations.IllegalWordTraps := by
  unfold Obligations.IllegalWordTraps
  refine ⟨fun s w h => ?_, rfl, fun s h hb => ?_⟩
  · have hw : w.toNat < 2 ^ 32 := w.isLt.trans (by decide)
    rw [execWord_illegal (decode_of_ne_encode h), trap_of_lt _ hw, BitVec.ofNat_toNat]
    rfl
  · obtain ⟨i, -, hd, -⟩ := h.fetch_answers hb
    exact ⟨i, hd⟩

/-! ### The checks and HALT (40_sequencer_control.md R112 to R115) -/

/-- Settles O10: no test of CHECK fires on a valid frame. -/
theorem checkPassesValidFrame : Obligations.CheckPassesValidFrame := by
  unfold Obligations.CheckPassesValidFrame
  exact fun _ h => exec_check h

theorem frameW_eq_zero : frameW s = 0 ↔ s.srcWidth = 0 := by rw [frameW, ← BitVec.toNat_inj]; rfl

theorem frameH_eq_zero : frameH s = 0 ↔ s.srcHeight = 0 := by rw [frameH, ← BitVec.toNat_inj]; rfl

/-- A check whose first test fires traps on it, and otherwise goes on to its other tests. -/
theorem checked_ite (p : Prop) [Decidable p] (c : Cause) (info : Nat) (other : Option (Cause × Nat)) (s : State) :
    checked (if p then some (c, info) else other) s = if p then trap c info s else checked other s := by
  split_ifs <;> rfl

/-- Settles O11: CHECK's tests are those of R113 one by one, and each trap writes its record. -/
theorem checkReportsFirstViolation : Obligations.CheckReportsFirstViolation := by
  unfold Obligations.CheckReportsFirstViolation
  refine ⟨rfl, fun s => congrArg Host.Outcome.next ?_⟩
  simp (disch := decide) only [frameViolation, checked_ite, frameW_eq_zero, frameH_eq_zero, trap_word, trap_of_lt]
  rfl

theorem exec_chkrad (h : s.blurRadius.toNat ≤ s.params.rmax) : exec .chkrad s = .next (advance s) := by
  have hv : radiusViolation s = none := if_neg (by omega)
  rw [exec, execChkrad, hv, checked]

theorem exec_chkrad_trap (h : s.params.rmax < s.blurRadius.toNat) :
    exec .chkrad s = .next (trap .badRadius s.blurRadius.toNat s) := by
  have hv : radiusViolation s = some _ := if_pos h
  rw [exec, execChkrad, hv, checked]

theorem exec_chkthr_trap (h : s.highThreshold.toNat < s.lowThreshold.toNat) : exec .chkthr s =
    .next (trap .badThresholds (s.highThreshold.toNat * 256 + s.lowThreshold.toNat) s) := by
  have hv : thresholdViolation s = some _ := if_pos h
  rw [exec, execChkthr, hv, checked]

/-- Settles O12: CHKRAD passes or traps by its one test. -/
theorem chkradBoundsRadius : Obligations.ChkradBoundsRadius := by
  unfold Obligations.ChkradBoundsRadius
  refine ⟨rfl, fun s => ⟨exec_chkrad, fun h => ?_⟩⟩
  rw [exec_chkrad_trap h, trap_word]
  rfl

/-- Settles O13: CHKTHR passes or traps by its one test, and two byte thresholds fit one register. -/
theorem chkthrOrdersThresholds : Obligations.ChkthrOrdersThresholds := by
  unfold Obligations.ChkthrOrdersThresholds
  refine ⟨rfl, fun s hlo hhi => ⟨exec_chkthr, fun h => ?_⟩⟩
  rw [exec_chkthr_trap h, trap_of_lt _ (by omega)]
  rfl

theorem statusWord_done (h : s.phase = .done) : statusWord s = 6 := by
  rw [statusWord, (dstValid_iff s).2 h, h]
  rfl

/-- Settles O14: HALT writes STATE alone. -/
theorem haltPublishes : Obligations.HaltPublishes := by
  unfold Obligations.HaltPublishes
  exact ⟨rfl, fun s => ⟨rfl, statusWord_done rfl, (dstValid_iff _).2 rfl⟩⟩

/-! ### START (40_sequencer_control.md R111) -/

/-- Settles O47: outside BUSY, by the first option that fails its test, if one does. -/
theorem startDispatches : Obligations.StartDispatches := by
  unfold Obligations.StartDispatches
  refine fun s => ⟨startCommand_busy, fun hb => ?_⟩
  rw [startCommand_eq hb, startViolation]
  split_ifs with h4 h1 h0
  · exact trap_word _ _ _
  · exact trap_of_lt _ (by decide) _
  · rw [Option.elim_none, enterProgram, selectedProgram, if_pos h0]
    rfl
  · rw [Option.elim_none, enterProgram, selectedProgram, if_neg h0]
    rfl

end Sys2Proof.Machine
end

section
/-! PROOFS. Every invocation ends: each step of it ends it or takes it one word further in its program
(40_sequencer_control.md R118). -/

namespace Sys2Proof.Machine

variable {s t : State}

/-- The outside world performs no transaction and no reset; `env_fail` is free. -/
def OnlyTicks (inputs : List Input) : Prop := ∀ i ∈ inputs, ∃ envFail, i = .tick envFail

/-- An invocation has ended: DONE or ERROR. -/
def Ended (s : State) : Prop := s.phase = .done ∨ s.phase = .error

/-- With no transaction and no reset to come, every step is the sequencer's. -/
theorem step_onlyTicks (h : OnlyTicks s.inputs) :
    ∃ e rest, step s = sequencerTurn e { s with inputs := rest } ∧ OnlyTicks rest := by
  match hi : s.inputs with
  | [] =>
    refine ⟨false, [], ?_, nofun⟩
    rw [step_silent hi, ← hi]
  | i :: rest =>
    rw [hi] at h
    obtain ⟨e, rfl⟩ := h i List.mem_cons_self
    exact ⟨e, rest, step_tick hi, fun j hj => h j (List.mem_cons_of_mem _ hj)⟩

theorem MicroStep.inputs {i : Instr} (hm : MicroStep s i t) : t.inputs = s.inputs := by
  cases hm with
  | trapped | halted | frame | radius | thresholds | published => rfl
  | planes hi hx => rw [planeWriter_next hi hx]

/-- A micro-op that answers in a BUSY core ends the invocation or leaves the core BUSY. -/
theorem ended_or_busy_of_exec {i : Instr} (hb : s.phase = .busy) (hx : exec i s = .next t) : Ended t ∨ t.phase = .busy := by
  obtain hp | ⟨-, hp⟩ | ⟨c, n, rfl⟩ := exec_phase hx
  · exact .inr (hp.trans hb)
  · exact .inl (.inl hp)
  · exact .inl (.inr rfl)

/-- A turn of the sequencer ends the invocation or takes it to the next word of the same program. -/
theorem Invariant.turn (h : Invariant s) (hb : s.phase = .busy) (e : Bool) :
    ∃ t, sequencerTurn e s = .next t ∧ Invariant t ∧ t.inputs = s.inputs ∧
      (Ended t ∨ t.phase = .busy ∧ t.upc = s.upc + 1 ∧ selectedEntry t = selectedEntry s) := by
  cases e with
  | true => exact ⟨_, sequencerTurn_fail hb, .ofTrap h.params h.memories _ _, rfl, .inl (.inr rfl)⟩
  | false =>
    obtain ⟨i, t, hd, hx⟩ := h.fetch_answers hb
    have hm := microStep_of_exec hx
    exact ⟨t, (sequencerTurn_op hb hd).trans hx, h.microStep hb hd hm, hm.inputs,
      (ended_or_busy_of_exec hb hx).imp_right fun ht => ⟨ht, hm.advances ht⟩⟩

/-- `n` steps end an invocation that has at most `n` words of its program before it. -/
theorem Invariant.ends (n : Nat) : ∀ {s : State}, Invariant s → s.phase = .busy → OnlyTicks s.inputs →
    selectedEntry s + 11 ≤ s.upc.toNat + n → ∃ k ≤ n, ∃ t : State, Sys2Proof.core.run k s = .next t ∧ Ended t := by
  induction n with
  | zero =>
    intro s h hb _ hn
    have := (h.busy hb).2.upc_le
    omega
  | succ n ih =>
    intro s h hb ho hn
    obtain ⟨e, rest, hs, hrest⟩ := step_onlyTicks ho
    obtain ⟨t, ht, hit, hin, hend | ⟨htb, hu, hsel⟩⟩ := (h.withInputs rest).turn hb e
    · exact ⟨1, by omega, t, run_succ (hs.trans ht) 0, hend⟩
    · have hsucc : t.upc.toNat = s.upc.toNat + 1 := by rw [hu]; exact upc_succ (h.busy hb).2.position.1
      have hentry : selectedEntry t = selectedEntry s := hsel
      obtain ⟨k, hk, u, hr, hend⟩ := ih hit htb (hin ▸ hrest) (by omega)
      exact ⟨k + 1, by omega, u, (run_succ (hs.trans ht) k).trans hr, hend⟩

theorem programEntry_le (u : Nat) : programEntry u ≤ u := by
  unfold programEntry
  split <;> omega

/-- Settles O56: the position in the program is the measure, and no program has more than eleven words. -/
theorem everyInvocationEnds : Obligations.EveryInvocationEnds := by
  unfold Obligations.EveryInvocationEnds
  intro s h hb ho
  have hle : selectedEntry s ≤ s.upc.toNat := (h.busy hb).2.program ▸ programEntry_le _
  exact h.ends 11 hb ho (by omega)

end Sys2Proof.Machine
end

section
/-! PROOFS. The pointwise micro-ops: what each writes at every pixel, that GRAYF is idempotent and THRESH monotone in its
threshold (41_pointwise.md R130 to R137). -/

namespace Sys2Proof.Machine

variable {s : State}

/-! ### What a publishing micro-op leaves in DST (41_pointwise.md R136) -/

theorem read_dst_published (f : Nat → Byte) {k : Nat} (hk : k < 4 * frameN s) :
    (advance (publish f s)).dst.read k = some (f k) := by
  rw [advance_dst, publish_dst, Memory.read_fill, if_pos hk]

theorem read_dst_beyond_published (f : Nat → Byte) (k : Nat) (hk : 4 * frameN s ≤ k) :
    (advance (publish f s)).dst.read k = s.dst.read k :=
  read_fill_beyond s.dst (4 * frameN s) f hk

theorem read_dst_gray (v a : Nat → Nat) {i : Nat} (hi : i < frameN s) :
    (advance (publish (grayPixelByte v a) s)).dst.read (4 * i) = some (byteOf (v i)) ∧
    (advance (publish (grayPixelByte v a) s)).dst.read (4 * i + 1) = some (byteOf (v i)) ∧
    (advance (publish (grayPixelByte v a) s)).dst.read (4 * i + 2) = some (byteOf (v i)) ∧
    (advance (publish (grayPixelByte v a) s)).dst.read (4 * i + 3) = some (byteOf (a i)) :=
  read_fill_gray s.dst v a hi

/-! ### The values that are written -/

/-- A byte read as a number and stored again is the byte. -/
theorem byteOf_srcAt (s : State) (k : Nat) : byteOf (srcAt s k) = s.src.readOr (Config.unwritten s.epoch .src) k :=
  BitVec.eq_of_toNat_eq (byteOf_toNat (srcAt_le s k))

theorem lumaOfPixel_le (s : State) (i : Nat) : lumaOfPixel s i ≤ 255 :=
  lum_le (srcAt_le s _) (srcAt_le s _) (srcAt_le s _)

/-- The stored mark of THRESH: white strictly above the threshold (R133). -/
theorem byteOf_binarize (t l : Nat) : byteOf (binarize t l) = if t < l then 255 else 0 := by
  unfold binarize
  split <;> rfl

theorem byteOf_binarize_eq_white {t l : Nat} : byteOf (binarize t l) = 255 ↔ t < l := by
  simp [byteOf_binarize]

/-! ### Each micro-op in full -/

/-- Settles O15: COPY publishes the bytes of SRC as they read. -/
theorem copyCopiesEveryByte : Obligations.CopyCopiesEveryByte := by
  unfold Obligations.CopyCopiesEveryByte
  refine ⟨rfl, fun s hw hf => ⟨_, exec_copy hf, advance_publish _ hw hf, fun i hi => ?_,
    read_dst_beyond_published _⟩⟩
  rw [read_dst_published _ hi, byteOf_srcAt]

/-- Settles O16: GRAYF publishes gray pixels of the luminance, which is a weighted mean of bytes. -/
theorem grayfWritesLuminance : Obligations.GrayfWritesLuminance := by
  unfold Obligations.GrayfWritesLuminance
  exact ⟨rfl, fun s hw hf => ⟨_, exec_grayf hf, advance_publish _ hw hf,
    fun i hi => ⟨lumaOfPixel_le s i, read_dst_gray _ _ hi⟩, read_dst_beyond_published _⟩⟩

/-- Settles O17: THRESH publishes gray pixels of the binarized luminance. -/
theorem threshBinarizes : Obligations.ThreshBinarizes := by
  unfold Obligations.ThreshBinarizes
  refine ⟨rfl, fun s hw hf => ⟨_, exec_thresh hf, advance_publish _ hw hf, fun i hi => ?_,
    read_dst_beyond_published _⟩⟩
  have h := read_dst_gray (fun i => binarize s.thresholdValue.toNat (lumaOfPixel s i)) (fun i => srcAt s (4 * i + 3)) hi
  rwa [byteOf_binarize] at h

/-- Settles O18: LUMA fills its plane with the luminance and nothing else. -/
theorem lumaWritesLuminancePlane : Obligations.LumaWritesLuminancePlane := by
  unfold Obligations.LumaWritesLuminancePlane
  refine ⟨rfl, fun s hf => ⟨_, exec_luma hf, rfl, fun i hi => ?_, fun i hi => read_fill_beyond _ _ _ hi⟩⟩
  rw [Memory.read_fill, if_pos hi]
  rfl

/-- Settles O19: EXPAND publishes gray pixels of the marks, opaque. -/
theorem expandBroadcastsMarks : Obligations.ExpandBroadcastsMarks := by
  unfold Obligations.ExpandBroadcastsMarks
  exact ⟨rfl, fun s hw hf => ⟨_, exec_expand hf, advance_publish _ hw hf, fun i hi => read_dst_gray _ _ hi,
    read_dst_beyond_published _⟩⟩

/-! ### GRAYF on its own output (41_pointwise.md R137) -/

theorem srcAt_of_read {k : Nat} {b : Byte} (h : s.src.read k = some b) : srcAt s k = b.toNat :=
  congrArg BitVec.toNat (Memory.readOr_of_read h _)

/-- Where SRC holds a gray pixel, its luminance is the gray value. -/
theorem lumaOfPixel_of_gray {i v : Nat} (hv : v ≤ 255) (hr : s.src.read (4 * i) = some (byteOf v))
    (hg : s.src.read (4 * i + 1) = some (byteOf v)) (hb : s.src.read (4 * i + 2) = some (byteOf v)) :
    lumaOfPixel s i = v := by
  rw [lumaOfPixel, srcAt_of_read hr, srcAt_of_read hg, srcAt_of_read hb, lum_gray, byteOf_toNat hv]

/-- Settles O20: a pixel of the first output is gray, so the second run finds the same luminance and the same alpha in it. -/
theorem grayscaleIdempotent : Obligations.GrayscaleIdempotent := by
  unfold Obligations.GrayscaleIdempotent
  intro s hf
  let output := advance (publish (grayPixelByte (lumaOfPixel s) fun i => srcAt s (4 * i + 3)) s)
  let fedBack : State := { output with src := output.dst }
  refine ⟨output, _, exec_grayf hf, exec_grayf (s := fedBack) hf, fun k hk => ?_⟩
  have pixel {i : Nat} (hi : i < frameN s) :
      lumaOfPixel fedBack i = lumaOfPixel s i ∧ srcAt fedBack (4 * i + 3) = srcAt s (4 * i + 3) := by
    obtain ⟨hr, hg, hb, ha⟩ := read_dst_gray (lumaOfPixel s) (fun i => srcAt s (4 * i + 3)) hi
    exact ⟨lumaOfPixel_of_gray (s := fedBack) (lumaOfPixel_le s i) hr hg hb,
      (srcAt_of_read (s := fedBack) ha).trans (byteOf_toNat (srcAt_le s _))⟩
  rw [read_dst_published (s := fedBack) _ hk, read_dst_published (s := s) _ hk,
    grayPixelByte_congr (fun i hi => (pixel hi).1) (fun i hi => (pixel hi).2) hk]

/-! ### THRESH at two thresholds (41_pointwise.md R133) -/

/-- Settles O21: a white pixel is strictly above the higher threshold, so above the lower one. -/
theorem thresholdMonotone : Obligations.ThresholdMonotone := by
  unfold Obligations.ThresholdMonotone
  intro s higher hf hle
  let raised : State := { s with thresholdValue := higher }
  refine ⟨_, _, exec_thresh hf, exec_thresh (s := raised) hf, fun i hi hwhite => ?_⟩
  rw [(read_dst_gray (s := raised) _ _ hi).1, Option.some_inj, byteOf_binarize_eq_white] at hwhite
  rw [(read_dst_gray _ _ hi).1, Option.some_inj, byteOf_binarize_eq_white]
  exact Nat.lt_of_le_of_lt hle hwhite

end Sys2Proof.Machine
end

section
/-! PROOFS. The Gaussian micro-ops: what each blur writes at every pixel, that a blurred value stays within its footprint, and
that a blur of radius 0 is a copy (42_gaussian.md R150 to R154). -/

namespace Sys2Proof.Machine

variable {s : State}

/-! ### The blurs by the nearest valid pixel (42_gaussian.md R150 to R153) -/

theorem hblurAt_eq (x : Nat) {y : Nat} (hy : y < frameH s) : hblurAt s x y = sevenTap fun k =>
    planeAt s .luma (y * frameW s + nearestIn (frameW s) (x + k)) := by
  rw [hblurAt, roundAcc_tapSum]
  simp only [elementClamped, elementAt_eq, clampc_eq_nearestIn, nearestIn_self hy]

theorem vblurAt_eq {x : Nat} (hx : x < frameW s) (y : Nat) : vblurAt s x y = sevenTap fun k =>
    planeAt s .tmp (nearestIn (frameH s) (y + k) * frameW s + x) := by
  rw [vblurAt, roundAcc_tapSum]
  simp only [elementClamped, elementAt_eq, clampc_eq_nearestIn, nearestIn_self hx]

theorem blur2dAt_eq (s : State) (r x y c : Nat) : blur2dAt s r x y c = squareTap r fun dx dy =>
    srcAt s (4 * (nearestIn (frameH s) (y + dy) * frameW s + nearestIn (frameW s) (x + dx)) + c) := by
  rw [blur2dAt, roundAcc_footprintSum]
  simp only [pxClamped, px, indexOf, clampc_eq_nearestIn]

/-! ### Each micro-op in full -/

/-- The element that a plane writer working by coordinates leaves at `(x, y)`. -/
theorem read_fill_element {v : Nat} (m : Memory v) (g : Nat → Nat → BitVec v) {w h x y : Nat} (hx : x < w) (hy : y < h) :
    (m.fill (w * h) fun i => g (columnOf w i) (rowOf w i)).read (y * w + x) = some (g x y) := by
  rw [read_fill_index m _ hx hy, columnOf_index hx, rowOf_index hx]

/-- The byte that a DST writer working by coordinates and channel leaves at channel `c` of `(x, y)`. -/
theorem read_fill_channel (m : Memory 8) (g : Nat → Nat → Nat → Byte) {w h x y c : Nat} (hx : x < w) (hy : y < h)
    (hc : c < 4) :
    (m.fill (4 * (w * h)) fun k => g (columnOf w (k / 4)) (rowOf w (k / 4)) (k % 4)).read (4 * (y * w + x) + c) =
      some (g x y c) := by
  have hpixel : (4 * (y * w + x) + c) / 4 = y * w + x := by omega
  have hchannel : (4 * (y * w + x) + c) % 4 = c := by omega
  rw [read_fill_pixel m _ hx hy hc, hpixel, hchannel, columnOf_index hx, rowOf_index hx]

/-- Settles O22: BLUR2D publishes the weighted sum of the footprint at every channel of every pixel. -/
theorem blur2dConvolvesEveryChannel : Obligations.Blur2dConvolvesEveryChannel := by
  unfold Obligations.Blur2dConvolvesEveryChannel
  refine ⟨rfl, fun s hw hf hr => ⟨_, exec_blur2d hf hr, advance_publish _ hw hf, fun x hx y hy c hc => ?_,
    read_dst_beyond_published _⟩⟩
  rw [← blur2dAt_eq]
  exact read_fill_channel s.dst (fun x y c => byteOf (blur2dAt s s.blurRadius.toNat x y c)) hx hy hc

/-- Settles O23: HBLUR fills TMP with the seven-tap sums along the rows and nothing else. -/
theorem hblurConvolvesRows : Obligations.HblurConvolvesRows := by
  unfold Obligations.HblurConvolvesRows
  refine ⟨rfl, fun s hf => ⟨_, exec_hblur hf, rfl, fun x hx y hy => ?_, fun i hi => read_fill_beyond _ _ _ hi⟩⟩
  rw [← hblurAt_eq x hy]
  exact read_fill_element s.tmp (fun x y => byteOf (hblurAt s x y)) hx hy

/-- Settles O24: VBLUR fills BLUR with the seven-tap sums along the columns and nothing else. -/
theorem vblurConvolvesColumns : Obligations.VblurConvolvesColumns := by
  unfold Obligations.VblurConvolvesColumns
  refine ⟨rfl, fun s hf => ⟨_, exec_vblur hf, rfl, fun x hx y hy => ?_, fun i hi => read_fill_beyond _ _ _ hi⟩⟩
  rw [← vblurAt_eq hx y]
  exact read_fill_element s.blur (fun x y => byteOf (vblurAt s x y)) hx hy

/-! ### A blurred value stays within its footprint (42_gaussian.md R154) -/

/-- Samples between `a` and `b`, under weights that sum to 65536, accumulate to a value that rounds to between `a` and `b`. -/
theorem rounded_mean_within {ι : Type} {I : Finset ι} {weight sample : ι → Nat} {a b : Nat}
    (hsum : ∑ i ∈ I, weight i = 65536) (hb : b ≤ 255) (h : ∀ i ∈ I, a ≤ sample i ∧ sample i ≤ b) :
    a ≤ min 255 ((∑ i ∈ I, weight i * sample i + 32768) / 65536) ∧
    min 255 ((∑ i ∈ I, weight i * sample i + 32768) / 65536) ≤ b := by
  have hlow : 65536 * a ≤ ∑ i ∈ I, weight i * sample i := by
    rw [← hsum, Finset.sum_mul]
    exact Finset.sum_le_sum fun i hi => Nat.mul_le_mul_left _ (h i hi).1
  have hhigh : ∑ i ∈ I, weight i * sample i ≤ 65536 * b := by
    rw [← hsum, Finset.sum_mul]
    exact Finset.sum_le_sum fun i hi => Nat.mul_le_mul_left _ (h i hi).2
  omega

theorem k1_sum : ∑ k ∈ Finset.range 7, k1.getD k 0 = 65536 := by decide

theorem sevenTap_within {f : Int → Nat} {a b : Nat} (hb : b ≤ 255) (h : ∀ k, -3 ≤ k → k ≤ 3 → a ≤ f k ∧ f k ≤ b) :
    a ≤ sevenTap f ∧ sevenTap f ≤ b := by
  refine rounded_mean_within k1_sum hb fun k hk => h _ ?_ ?_
  · omega
  · have := Finset.mem_range.1 hk; omega

/-- A kernel sum as one sum over the pairs of offsets. -/
theorem overKernel_eq_sum_product (r : Nat) (f : Int → Int → Nat) : overKernel r f =
    ∑ p ∈ Finset.range (2 * r + 1) ×ˢ Finset.range (2 * r + 1), f ((p.2 : Int) - r) ((p.1 : Int) - r) :=
  (Finset.sum_product _ _ fun p : Nat × Nat => f ((p.2 : Int) - r) ((p.1 : Int) - r)).symm

theorem squareTap_within {r : Nat} (hr : coefRest r ≤ 65536) {f : Int → Int → Nat} {a b : Nat} (hb : b ≤ 255)
    (h : ∀ dx dy, -(r : Int) ≤ dx → dx ≤ r → -(r : Int) ≤ dy → dy ≤ r → a ≤ f dx dy ∧ f dx dy ≤ b) :
    a ≤ squareTap r f ∧ squareTap r f ≤ b := by
  have hsum := overKernel_coef2d hr
  rw [overKernel_eq_sum_product] at hsum
  rw [squareTap, overKernel_eq_sum_product]
  refine rounded_mean_within hsum hb fun p hp => ?_
  obtain ⟨hrow, hcolumn⟩ := Finset.mem_product.1 hp
  rw [Finset.mem_range] at hrow hcolumn
  exact h _ _ (by omega) (by omega) (by omega) (by omega)

/-- Settles O25: the weights of each blur sum to 65536, so the accumulator is a mean of the footprint. -/
theorem blurStaysWithinFootprint : Obligations.BlurStaysWithinFootprint := by
  unfold Obligations.BlurStaysWithinFootprint
  exact ⟨fun _ _ _ => sevenTap_within, fun _ _ _ _ _ hp hr => squareTap_within (Params.coefRest_le hp hr)⟩

/-! ### A blur of radius 0 (42_gaussian.md R151) -/

/-- The footprint of radius 0 is its centre, at the whole weight. -/
theorem squareTap_zero (f : Int → Int → Nat) : squareTap 0 f = min 255 (f 0 0) := by
  have hcentre : overKernel 0 (fun dx dy => coef2d 0 dx.natAbs dy.natAbs * f dx dy) = 65536 * f 0 0 := by
    simp [overKernel, coef2d, coefTable]
  rw [squareTap, hcentre]
  omega

/-- A blur of radius 0 leaves every byte of SRC as it is. -/
theorem blur2dAt_zero {k : Nat} (hk : k < 4 * frameN s) :
    blur2dAt s 0 (columnOf (frameW s) (k / 4)) (rowOf (frameW s) (k / 4)) (k % 4) = srcAt s k := by
  obtain ⟨x, hx, y, hy, hi⟩ := index_cases (w := frameW s) (h := frameH s) (i := k / 4) (Nat.div_lt_of_lt_mul hk)
  have hk4 : 4 * (y * frameW s + x) + k % 4 = k := by omega
  rw [hi, columnOf_index hx, rowOf_index hx, blur2dAt_eq, squareTap_zero, add_zero, add_zero, nearestIn_self hx,
    nearestIn_self hy, hk4, min_eq_right (srcAt_le s k)]

/-- What is published depends on the bytes of the frame only. -/
theorem publish_congr {f g : Nat → Byte} (h : ∀ k < 4 * frameN s, f k = g k) : publish f s = publish g s := by
  have hfill : s.dst.fill (4 * frameN s) f = s.dst.fill (4 * frameN s) g := by
    unfold Memory.fill
    rw [List.map_congr_left fun k hk => by rw [h k (List.mem_range.1 hk)]]
  rw [publish, publish, hfill]

/-- Settles O26: both micro-ops publish the bytes of SRC. -/
theorem radiusZeroIsIdentity : Obligations.RadiusZeroIsIdentity := by
  unfold Obligations.RadiusZeroIsIdentity
  intro s h0 hf
  have hr : s.blurRadius.toNat = 0 := by rw [h0]; rfl
  refine ⟨_, ?_, exec_copy hf⟩
  rw [exec_blur2d hf (by omega), hr, publish_congr fun k hk => congrArg byteOf (blur2dAt_zero hk)]

end Sys2Proof.Machine
end

section
/-! PROOFS. The gradient micro-ops: that the magnitude is the root rounded to nearest and the sector code the class of the absolute
angle, what SOBEL and NMS write at every pixel, and that suppression only zeroes (43_gradient_nms.md R170 to R176). -/

namespace Sys2Proof.Machine

variable {s : State} {x y : Nat}

/-! ### The magnitude (43_gradient_nms.md R173) -/

theorem magnitude_eq (gx gy : Int) : magnitude gx gy = min 255 (rsqrt (gx ^ 2 + gy ^ 2).toNat) := by
  rw [magnitude, sq, sq]

/-- Settles O31: `n` lies strictly between the squares of `rsqrt n` minus and plus one half. -/
theorem rsqrtRoundsToNearest : Obligations.RsqrtRoundsToNearest := by
  unfold Obligations.RsqrtRoundsToNearest
  refine ⟨fun n => ?_, magnitude_eq⟩
  obtain ⟨hr, rfl⟩ | ⟨hone, hlow, hhigh⟩ := rsqrt_spec n
  · simp [hr]
  · generalize rsqrt n = r at hone hlow hhigh
    have hone : (1 : ℝ) ≤ r := by exact_mod_cast hone
    have hlow : (r : ℝ) * r + 1 ≤ n + r := by exact_mod_cast hlow
    have hhigh : (n : ℝ) ≤ r * r + r := by exact_mod_cast hhigh
    have above : √(n : ℝ) < r + 1 / 2 := (Real.sqrt_lt' (by linarith)).2 (by linarith)
    have below : (r : ℝ) - 1 / 2 < √n := Real.lt_sqrt_of_sq_lt (by linarith)
    exact abs_sub_lt_iff.2 ⟨by linarith, by linarith⟩

/-! ### The boundary angles (43_gradient_nms.md R172) -/

/-- The absolute angle of a vector is below `θ` exactly if the vector, folded onto the upper half plane, lies clockwise of the
direction `θ`. -/
theorem abs_arg_lt_iff {z : ℂ} (hz : z ≠ 0) {θ : ℝ} (h0 : 0 < θ) (hpi : θ < Real.pi) :
    |z.arg| < θ ↔ Real.cos θ * |z.im| < Real.sin θ * z.re := by
  have hnorm : 0 < ‖z‖ := norm_pos_iff.2 hz
  have hre : z.re = ‖z‖ * Real.cos |z.arg| := by rw [Real.cos_abs, Complex.norm_mul_cos_arg]
  have him : |z.im| = ‖z‖ * Real.sin |z.arg| := by
    rw [← Complex.norm_mul_sin_arg z, abs_mul, abs_norm, Real.abs_sin_eq_sin_abs_of_abs_le_pi (Complex.abs_arg_le_pi z)]
  have hsin : Real.sin θ * z.re - Real.cos θ * |z.im| = ‖z‖ * Real.sin (θ - |z.arg|) := by
    rw [hre, him, Real.sin_sub]; ring
  rw [← sub_pos (a := Real.sin θ * z.re), hsin, mul_pos_iff_of_pos_left hnorm]
  have := abs_nonneg z.arg
  have := Complex.abs_arg_le_pi z
  constructor
  · exact fun h => Real.sin_pos_of_pos_of_lt_pi (by linarith) (by linarith)
  · intro h
    by_contra hle
    exact absurd h (Real.sin_nonpos_of_nonpos_of_neg_pi_le (by linarith) (by linarith)).not_gt

theorem cos_pi_div_eight_pos : 0 < Real.cos (Real.pi / 8) :=
  Real.cos_pos_of_mem_Ioo ⟨by linarith [Real.pi_pos], by linarith [Real.pi_pos]⟩

theorem sin_pi_div_eight_pos : 0 < Real.sin (Real.pi / 8) :=
  Real.sin_pos_of_pos_of_lt_pi (by linarith [Real.pi_pos]) (by linarith [Real.pi_pos])

/-- `tan (π / 8) = √2 - 1`. -/
theorem sin_pi_div_eight_eq : Real.sin (Real.pi / 8) = (√2 - 1) * Real.cos (Real.pi / 8) := by
  have hc := cos_pi_div_eight_pos
  have hs := sin_pi_div_eight_pos
  have hdouble : Real.pi / 4 = 2 * (Real.pi / 8) := by ring
  have hsq : (Real.sin (Real.pi / 8) + Real.cos (Real.pi / 8)) ^ 2 = (√2 * Real.cos (Real.pi / 8)) ^ 2 := by
    have heq : Real.sin (Real.pi / 4) = Real.cos (Real.pi / 4) := by rw [Real.sin_pi_div_four, Real.cos_pi_div_four]
    rw [hdouble, Real.sin_two_mul, Real.cos_two_mul] at heq
    rw [mul_pow, Real.sq_sqrt (by norm_num)]
    linarith [Real.sin_sq_add_cos_sq (Real.pi / 8)]
  have hroot := (pow_left_inj₀ (by positivity) (by positivity) two_ne_zero).1 hsq
  linarith

/-- `cot (π / 8) = √2 + 1`. -/
theorem cos_pi_div_eight_eq : Real.cos (Real.pi / 8) = (√2 + 1) * Real.sin (Real.pi / 8) := by
  have hroot : √2 * √2 = (2 : ℝ) := Real.mul_self_sqrt (by norm_num)
  rw [sin_pi_div_eight_eq]
  linear_combination (-Real.cos (Real.pi / 8)) * hroot

section
variable {z : ℂ} (hz : z ≠ 0)
include hz

/-- `abs_arg_lt_iff` for a direction given by the vector `(a, b)` of length `1 / k`. -/
theorem abs_arg_lt_iff_of_direction {θ k a b : ℝ} (h0 : 0 < θ) (hpi : θ < Real.pi) (hk : 0 < k)
    (hcos : Real.cos θ = a * k) (hsin : Real.sin θ = b * k) : |z.arg| < θ ↔ a * |z.im| < b * z.re := by
  rw [abs_arg_lt_iff hz h0 hpi, hcos, hsin, mul_right_comm a, mul_right_comm b, mul_lt_mul_iff_left₀ hk]

theorem abs_arg_lt_pi_div_eight : |z.arg| < Real.pi / 8 ↔ 1 * |z.im| < (√2 - 1) * z.re :=
  abs_arg_lt_iff_of_direction hz (by linarith [Real.pi_pos]) (by linarith [Real.pi_pos]) cos_pi_div_eight_pos
    (one_mul _).symm sin_pi_div_eight_eq

theorem abs_arg_lt_three_pi_div_eight : |z.arg| < 3 * Real.pi / 8 ↔ 1 * |z.im| < (√2 + 1) * z.re := by
  have hθ : 3 * Real.pi / 8 = Real.pi / 2 - Real.pi / 8 := by ring
  refine abs_arg_lt_iff_of_direction hz (by linarith [Real.pi_pos]) (by linarith [Real.pi_pos]) sin_pi_div_eight_pos ?_ ?_
  · rw [hθ, Real.cos_pi_div_two_sub, one_mul]
  · rw [hθ, Real.sin_pi_div_two_sub, cos_pi_div_eight_eq]

theorem abs_arg_lt_five_pi_div_eight : |z.arg| < 5 * Real.pi / 8 ↔ -1 * |z.im| < (√2 + 1) * z.re := by
  have hθ : 5 * Real.pi / 8 = Real.pi / 8 + Real.pi / 2 := by ring
  refine abs_arg_lt_iff_of_direction hz (by linarith [Real.pi_pos]) (by linarith [Real.pi_pos]) sin_pi_div_eight_pos ?_ ?_
  · rw [hθ, Real.cos_add_pi_div_two, neg_one_mul]
  · rw [hθ, Real.sin_add_pi_div_two, cos_pi_div_eight_eq]

theorem abs_arg_lt_seven_pi_div_eight : |z.arg| < 7 * Real.pi / 8 ↔ -1 * |z.im| < (√2 - 1) * z.re := by
  have hθ : 7 * Real.pi / 8 = Real.pi - Real.pi / 8 := by ring
  refine abs_arg_lt_iff_of_direction hz (by linarith [Real.pi_pos]) (by linarith [Real.pi_pos]) cos_pi_div_eight_pos ?_ ?_
  · rw [hθ, Real.cos_pi_sub, neg_one_mul]
  · rw [hθ, Real.sin_pi_sub, sin_pi_div_eight_eq]

end

/-! ### The sector code (43_gradient_nms.md R172) -/

theorem sqrt_two_mul_eq_sqrt {a : ℝ} (ha : 0 ≤ a) : √2 * a = √(2 * a ^ 2) := by
  rw [Real.sqrt_mul (by norm_num), Real.sqrt_sq ha]

/-- The first test of R172 compares with slope `√2 - 1`. -/
theorem sector_flat_test_iff (a b : Nat) : ((a : ℤ) + b) ^ 2 < 2 * (a : ℤ) ^ 2 ↔ (a : ℝ) + b < √2 * a := by
  rw [sqrt_two_mul_eq_sqrt a.cast_nonneg, Real.lt_sqrt (by positivity)]
  norm_cast

/-- The second test of R172 compares with slope `√2 + 1`. -/
theorem sector_steep_test_iff (a b : Nat) :
    (a : ℤ) ≤ b ∧ 2 * (a : ℤ) ^ 2 ≤ ((b : ℤ) - a) ^ 2 ↔ √2 * (a : ℝ) ≤ b - a := by
  rw [sqrt_two_mul_eq_sqrt a.cast_nonneg, Real.sqrt_le_iff, sub_nonneg]
  norm_cast

/-- `√2` is irrational, so no gradient lies on a boundary. -/
theorem sqrt_two_mul_intCast_ne {m n : ℤ} (h : m ≠ 0 ∨ n ≠ 0) : √2 * (m : ℝ) ≠ n := by
  intro he
  by_cases hm : m = 0
  · subst hm
    rw [Int.cast_zero, mul_zero] at he
    exact h.elim (· rfl) (· (by exact_mod_cast he.symm))
  · exact (irrational_sqrt_two.mul_intCast hm).ne_int n he

/-- R172's tests in terms of the slopes of the boundaries. -/
theorem sector_eq {gx gy : Int} (h : ¬(gx = 0 ∧ gy = 0)) : sector gx gy =
    if |(gx : ℝ)| + |(gy : ℝ)| < √2 * |(gx : ℝ)| then 0
    else if √2 * |(gx : ℝ)| ≤ |(gy : ℝ)| - |(gx : ℝ)| then 2
    else if 0 < gx then 1 else 3 := by
  simp only [sector, if_neg h, sector_flat_test_iff, sector_steep_test_iff]
  simp only [Nat.cast_natAbs, Int.cast_abs]

/-- A gradient to the right, of components `a` and `b` or `-b`, lies before the boundary at `5 π / 8`, and R172's tests are the two
before it. -/
theorem boundary_tests_right {a b : ℝ} (ha : 0 < a) (hb : 0 ≤ b) :
    (1 * b < (√2 - 1) * a ↔ a + b < √2 * a) ∧ (1 * b < (√2 + 1) * a ↔ ¬√2 * a ≤ b - a) ∧
    -1 * b < (√2 + 1) * a := by
  refine ⟨?_, ?_, ?_⟩
  · constructor <;> intro h <;> linarith
  · rw [not_le]; constructor <;> intro h <;> linarith
  · have : 0 < (√2 + 1) * a := by positivity
    linarith

/-- A gradient to the left, of components `-a` and `b` or `-b`, lies beyond the boundaries at `π / 8` and `3 π / 8`; the other two
mirror them. -/
theorem boundary_tests_left {a b : ℝ} (ha : 0 ≤ a) (hb : 0 ≤ b) (hflat : √2 * a ≠ a + b) (hsteep : √2 * a ≠ b - a) :
    ¬1 * b < (√2 - 1) * -a ∧ ¬1 * b < (√2 + 1) * -a ∧
    (-1 * b < (√2 + 1) * -a ↔ √2 * a ≤ b - a) ∧ (-1 * b < (√2 - 1) * -a ↔ ¬a + b < √2 * a) := by
  have hroot : 0 ≤ (√2 - 1) * a := mul_nonneg (by linarith [Real.one_lt_sqrt_two]) ha
  refine ⟨by linarith, by linarith, ?_, ?_⟩
  · rw [hsteep.le_iff_lt]; constructor <;> intro h <;> linarith
  · rw [not_lt, hflat.le_iff_lt]; constructor <;> intro h <;> linarith

/-- Settles O32: each boundary angle is a slope `√2 ± 1`, which R172's tests compare with, and no gradient lies on one. -/
theorem sectorClassifiesAbsoluteAngle : Obligations.SectorClassifiesAbsoluteAngle := by
  unfold Obligations.SectorClassifiesAbsoluteAngle
  intro gx gy angle
  by_cases h0 : gx = 0 ∧ gy = 0
  · obtain ⟨rfl, rfl⟩ := h0
    have hangle : angle < Real.pi / 8 := by simp [angle, Real.pi_pos]
    rw [if_pos hangle]
    rfl
  have hre : ((gx : ℂ) + gy * Complex.I).re = gx := by simp
  have him : ((gx : ℂ) + gy * Complex.I).im = gy := by simp
  have hz : (gx : ℂ) + gy * Complex.I ≠ 0 := fun hz => h0
    ⟨by simpa [hz] using hre.symm, by simpa [hz] using him.symm⟩
  have hb := abs_nonneg (gy : ℝ)
  simp only [angle, sector_eq h0, abs_arg_lt_pi_div_eight hz, abs_arg_lt_three_pi_div_eight hz,
    abs_arg_lt_five_pi_div_eight hz, abs_arg_lt_seven_pi_div_eight hz, hre, him]
  rcases lt_or_ge 0 gx with hpos | hneg
  case inl =>
    have hx : (0 : ℝ) < gx := by exact_mod_cast hpos
    obtain ⟨hflat, hsteep, hright⟩ := boundary_tests_right hx hb
    simp only [abs_of_pos hx, hflat, hsteep, hright, hpos, if_true, ite_not]
  case inr =>
    have hx : (gx : ℝ) ≤ 0 := by exact_mod_cast hneg
    have hnonzero : gx ≠ 0 ∨ |gy| ≠ 0 := by rw [abs_ne_zero]; omega
    have offFlat : √2 * -(gx : ℝ) ≠ -gx + |(gy : ℝ)| := by
      exact_mod_cast sqrt_two_mul_intCast_ne (m := -gx) (n := -gx + |gy|) (by omega)
    have offSteep : √2 * -(gx : ℝ) ≠ |(gy : ℝ)| - -gx := by
      exact_mod_cast sqrt_two_mul_intCast_ne (m := -gx) (n := |gy| - -gx) (by omega)
    obtain ⟨hnotFlat, hnotSteep, hsteep, hflat⟩ := boundary_tests_left (neg_nonneg.2 hx) hb offFlat offSteep
    rw [neg_neg] at hnotFlat hnotSteep hsteep hflat
    simp only [abs_of_nonpos hx, hnotFlat, hnotSteep, hflat, hsteep, hneg.not_gt, if_false, ite_not]
    by_cases h : -(gx : ℝ) + |(gy : ℝ)| < √2 * -gx
    · have : ¬√2 * -(gx : ℝ) ≤ |(gy : ℝ)| - -gx := by linarith
      rw [if_pos h, if_pos h, if_neg this]
    · rw [if_neg h, if_neg h]

/-! ### The gradient field (43_gradient_nms.md R170, R171) -/

/-- `isInterior` in the form in which R10 prints it. -/
theorem isInterior_iff {w h : Nat} : isInterior w h x y ↔ 1 ≤ x ∧ x < w - 1 ∧ 1 ≤ y ∧ y < h - 1 := by
  unfold isInterior; omega

theorem sobelMag_interior (h : isInterior (frameW s) (frameH s) x y) :
    sobelMag s x y = magnitude (blurGradX s x y) (blurGradY s x y) := if_pos h

theorem sobelDir_interior (h : isInterior (frameW s) (frameH s) x y) :
    sobelDir s x y = sector (blurGradX s x y) (blurGradY s x y) := if_pos h

theorem sobelMag_border (h : ¬isInterior (frameW s) (frameH s) x y) : sobelMag s x y = 0 := if_neg h

theorem sobelDir_border (h : ¬isInterior (frameW s) (frameH s) x y) : sobelDir s x y = 0 := if_neg h

/-- Settles O30: SOBEL fills both planes by coordinates, the border with 0. -/
theorem sobelComputesGradientField : Obligations.SobelComputesGradientField := by
  unfold Obligations.SobelComputesGradientField
  refine ⟨rfl, fun s hf => ⟨_, exec_sobel hf, rfl, fun x hx y hy => ?_,
    fun i hi => ⟨read_fill_beyond _ _ _ hi, read_fill_beyond _ _ _ hi⟩⟩⟩
  intro b gx gy
  have hmag := read_fill_element s.mag (fun x y => byteOf (sobelMag s x y)) hx hy
  have hdir := read_fill_element s.dir (fun x y => BitVec.ofNat 2 (sobelDir s x y)) hx hy
  by_cases hi : isInterior (frameW s) (frameH s) x y
  · rw [if_pos (isInterior_iff.1 hi)]
    rw [sobelMag_interior hi, magnitude_eq] at hmag
    rw [sobelDir_interior hi] at hdir
    exact ⟨hmag, hdir⟩
  · rw [if_neg (mt isInterior_iff.2 hi)]
    rw [sobelMag_border hi] at hmag
    rw [sobelDir_border hi] at hdir
    exact ⟨hmag, hdir⟩

/-! ### Suppression (43_gradient_nms.md R174 to R176) -/

/-- The magnitude at `(x, y)` is at least the two that its sector code names (R174). -/
def IsLocalMaximum (s : State) (x y : Nat) : Prop :=
  let n := sectorNeighbours (elementAt s .dir x y) x y
  elementAt s .mag n.1.1 n.1.2 ≤ elementAt s .mag x y ∧ elementAt s .mag n.2.1 n.2.2 ≤ elementAt s .mag x y

theorem nmsAt_of_kept (hi : isInterior (frameW s) (frameH s) x y) (hm : IsLocalMaximum s x y) :
    nmsAt s x y = elementAt s .mag x y := by
  rw [nmsAt, if_pos hi]
  exact if_pos hm

theorem nmsAt_of_suppressed (h : ¬(isInterior (frameW s) (frameH s) x y ∧ IsLocalMaximum s x y)) : nmsAt s x y = 0 := by
  unfold nmsAt
  split
  · exact if_neg fun hm => h ⟨‹_›, hm⟩
  · rfl

theorem nmsAt_border (h : ¬isInterior (frameW s) (frameH s) x y) : nmsAt s x y = 0 :=
  nmsAt_of_suppressed fun hi => h hi.1

theorem nmsAt_cases (s : State) (x y : Nat) : nmsAt s x y = elementAt s .mag x y ∨ nmsAt s x y = 0 := by
  by_cases h : isInterior (frameW s) (frameH s) x y ∧ IsLocalMaximum s x y
  · exact .inl (nmsAt_of_kept h.1 h.2)
  · exact .inr (nmsAt_of_suppressed h)

/-- Settles O33: NMS fills SUP by coordinates, and the table of R174 names the neighbours. -/
theorem nmsKeepsLocalMaxima : Obligations.NmsKeepsLocalMaxima := by
  unfold Obligations.NmsKeepsLocalMaxima
  refine ⟨rfl, fun s hf => ⟨_, exec_nms hf, rfl, fun x hx y hy => ?_, fun i hi => read_fill_beyond _ _ _ hi⟩⟩
  intro m keeps
  have hsup := read_fill_element s.sup (fun x y => byteOf (nmsAt s x y)) hx hy
  have hkeeps : keeps ↔ IsLocalMaximum s x y := by
    unfold keeps IsLocalMaximum
    rw [elementAt_eq s .dir]
    rcases planeAt s .dir (y * frameW s + x) with _ | _ | _ | _ <;> rfl
  have hkept : (1 ≤ x ∧ x < frameW s - 1 ∧ 1 ≤ y ∧ y < frameH s - 1 ∧ keeps) ↔
      isInterior (frameW s) (frameH s) x y ∧ IsLocalMaximum s x y := by
    simp only [hkeeps, isInterior_iff, and_assoc]
  rw [hkept]
  refine ⟨fun h => ?_, fun h => ?_⟩
  · rwa [nmsAt_of_kept h.1 h.2] at hsup
  · rwa [nmsAt_of_suppressed h] at hsup

/-- Settles O34: NMS keeps MAG and DIR as SOBEL left them, and puts the magnitude or 0 into SUP. -/
theorem suppressionOnlyZeroes : Obligations.SuppressionOnlyZeroes := by
  unfold Obligations.SuppressionOnlyZeroes
  intro s hf
  obtain ⟨t, ht⟩ : ∃ t, exec .sobel s = .next t := ⟨_, exec_sobel hf⟩
  have hframe := planeWriter_next (by decide) ht
  have hw : frameW t = frameW s := by rw [hframe]; rfl
  have hh : frameH t = frameH s := by rw [hframe]; rfl
  have hft : frameN t ≤ t.params.npixMax := by rw [hframe]; exact hf
  obtain ⟨u, hu⟩ : ∃ u, exec .nms t = .next u := ⟨_, exec_nms hft⟩
  refine ⟨t, u, ht, hu, fun x hx y hy => ?_⟩
  rw [elementAt_sup hu (hw ▸ hx) (hh ▸ hy), elementAt_unwritten hu (p := .mag) (by decide),
    elementAt_unwritten hu (p := .dir) (by decide)]
  refine ⟨nmsAt_cases t x y, fun h0 => Nat.le_zero.1 (h0 ▸ nmsAt_le t x y), fun hborder => ?_⟩
  rw [elementAt_mag ht hx hy, elementAt_dir ht hx hy]
  exact ⟨sobelMag_border hborder, sobelDir_border hborder, nmsAt_border (by rwa [hw, hh])⟩

end Sys2Proof.Machine
end

section
/-! PROOFS. The edge-marking micro-ops: what DTHR and HYST leave in EDGE, and that the marks of a completed edge map are binary
(44_threshold_hysteresis.md R190 to R194, 41_pointwise.md R135, conflict C1). -/

namespace Sys2Proof.Machine

variable {s t : State} {x y : Nat}

/-! ### The marks of DTHR (44_threshold_hysteresis.md R190) -/

theorem byteOf_markOf (lo hi v : Nat) :
    byteOf (markOf lo hi v) = if v ≥ hi then 255 else if v ≥ lo then 128 else 0 := by
  unfold markOf
  split_ifs <;> rfl

/-- The three marks of R190. -/
theorem markOf_cases (lo hi v : Nat) : markOf lo hi v = 0 ∨ markOf lo hi v = 128 ∨ markOf lo hi v = 255 := by
  unfold markOf
  split_ifs <;> simp

/-- A magnitude of 0 gets no mark when both thresholds are positive. -/
theorem markOf_zero {lo hi : Nat} (hlo : 1 ≤ lo) (hth : lo ≤ hi) : markOf lo hi 0 = 0 := by
  rw [markOf, if_neg (by omega), if_neg (by omega)]

/-- Settles O35: DTHR fills EDGE with the marks of SUP and nothing else. -/
theorem dthrMarksEveryPixel : Obligations.DthrMarksEveryPixel := by
  unfold Obligations.DthrMarksEveryPixel
  refine ⟨rfl, fun s hf => ⟨_, exec_dthr hf, rfl, fun i hi => ?_, fun i hi => read_fill_beyond _ _ _ hi⟩⟩
  rw [Memory.read_fill, if_pos hi, byteOf_markOf]

/-! ### The pass of HYST (44_threshold_hysteresis.md R192 to R194) -/

theorem elementAt_edge_hyst_interior (h : exec .hyst s = .next t) (hi : isInterior (frameW s) (frameH s) x y) :
    elementAt t .edge x y = settledMark (elementAt s .edge) (elementAt t .edge) x y := by
  have hx : x < frameW s := by have := hi.2.1; omega
  rw [elementAt_edge_hyst h hx, if_pos hi]

theorem elementAt_edge_hyst_border (h : exec .hyst s = .next t) (hx : x < frameW s)
    (hi : ¬isInterior (frameW s) (frameH s) x y) : elementAt t .edge x y = elementAt s .edge x y := by
  rw [elementAt_edge_hyst h hx, if_neg hi]

/-- Settles O36: the pass settles the interior in raster order and writes nowhere else. -/
theorem hystIsOneRasterPass : Obligations.HystIsOneRasterPass := by
  unfold Obligations.HystIsOneRasterPass
  exact ⟨rfl, fun s hf => ⟨_, exec_hyst hf, rfl, fun x y hi => elementAt_edge_hyst_interior (exec_hyst hf) hi,
    fun i hi => hystPass_read _ _ hi⟩⟩

/-- Settling leaves no weak mark. -/
theorem settledMark_binary {before after : Nat → Nat → Nat}
    (h : before x y = 0 ∨ before x y = 128 ∨ before x y = 255) :
    settledMark before after x y = 0 ∨ settledMark before after x y = 255 := by
  unfold settledMark
  obtain h | h | h := h
  · simp [h]
  · rw [if_pos h]
    split_ifs <;> simp
  · simp [h]

/-- Settles O37: DTHR leaves one of three marks everywhere, and HYST settles the weak ones of the interior. -/
theorem hystLeavesBinaryInterior : Obligations.HystLeavesBinaryInterior := by
  unfold Obligations.HystLeavesBinaryInterior
  intro s hf
  obtain ⟨t, ht⟩ : ∃ t, exec .dthr s = .next t := ⟨_, exec_dthr hf⟩
  have hframe : Underway s (s.upc + 1) t := planeWriter_next (by decide) ht
  have hft : frameN t ≤ t.params.npixMax := by rwa [hframe.size, hframe.params]
  obtain ⟨u, hu⟩ : ∃ u, exec .hyst t = .next u := ⟨_, exec_hyst hft⟩
  refine ⟨t, u, ht, hu, fun x hx y hy => ⟨fun hi => ?_, fun hi => ?_⟩⟩
  · have hmark := markOf_cases s.lowThreshold.toNat s.highThreshold.toNat (elementAt s .sup x y)
    rw [← elementAt_edge_dthr ht hx hy] at hmark
    rw [elementAt_edge_hyst_interior hu (by rwa [hframe.width, hframe.height])]
    exact settledMark_binary hmark
  · exact elementAt_edge_hyst_border hu (hframe.width ▸ hx) (by rwa [hframe.width, hframe.height])

/-! ### The completed edge map (44_threshold_hysteresis.md R194, conflict C1) -/

section
variable {w h lo hi : Nat} {pix : Nat → Nat → Nat → Nat} {L T B M D S K E : Nat → Nat → Nat}

/-- The settled marks of the interior are binary. -/
theorem CannyStages.interior_binary (hc : CannyStages w h lo hi pix L T B M D S K E) (hxy : isInterior w h x y) :
    E x y = 0 ∨ E x y = 255 := by
  have hx : x < w := by have := hxy.2.1; omega
  have hy : y < h := by have := hxy.2.2.2; omega
  have hmark : K x y = markOf lo hi (S x y) := hc.marked x hx y hy
  rw [hc.settled x hx y hy, if_pos hxy]
  exact settledMark_binary (hmark ▸ markOf_cases lo hi (S x y))

/-- The border is suppressed to 0, and so unmarked when LOW_THRESHOLD is at least 1. -/
theorem CannyStages.border_zero (hc : CannyStages w h lo hi pix L T B M D S K E) (hlo : 1 ≤ lo) (hth : lo ≤ hi)
    (hx : x < w) (hy : y < h) (hxy : ¬isInterior w h x y) : E x y = 0 := by
  have hsup : S x y = 0 := by rw [hc.suppressed x hx y hy, if_neg fun hk => hxy hk.1]
  have hmark : K x y = markOf lo hi (S x y) := hc.marked x hx y hy
  rw [hc.settled x hx y hy, if_neg hxy, hmark, hsup, markOf_zero hlo hth]

/-- The settled marks are binary wherever R194 says so. -/
theorem CannyStages.binary (hc : CannyStages w h lo hi pix L T B M D S K E) (hth : lo ≤ hi) (hx : x < w) (hy : y < h)
    (hxy : 1 ≤ lo ∨ isInterior w h x y) : E x y = 0 ∨ E x y = 255 := by
  by_cases hin : isInterior w h x y
  · exact hc.interior_binary hin
  · exact .inl (hc.border_zero (hxy.resolve_right hin) hth hx hy hin)

end

/-- Settles O59: the invocation leaves the Canny stages (O58), and the output expands their settled marks. -/
theorem edgeMapIsBinary : Obligations.EdgeMapIsBinary := by
  unfold Obligations.EdgeMapIsBinary
  intro s hw hb hi hc hen hft hth
  obtain ⟨t, marked, hrun, hdone, -, -, -, -, -, -, hcanny, hout⟩ :=
    edgeInvocationIsCanny s hw hb hi hc hen hft hth
  refine ⟨t, hrun, hdone, fun x hx y hy => ?_⟩
  obtain ⟨hcolour, halpha⟩ := hout x hx y hy
  refine ⟨halpha, fun c hch hxy => ?_⟩
  rw [hcolour c hch]
  exact (hcanny.binary hth hx hy hxy).imp (congrArg (BitVec.ofNat 32)) (congrArg (BitVec.ofNat 32))

end Sys2Proof.Machine
end

section
/-! PROOFS. The host port: what each transaction reads and writes, the BUSY lock, ACK, and that transactions and resets are steps
of their own (45_host_interface.md R211 to R219, 70_reset_and_hazards.md R260). -/

namespace Sys2Proof.Machine

variable {s : State} {i : Nat}

/-- Settles O8: both are given by what a step does with its next input. -/
theorem stepPerformsTransactionsAndReset : Obligations.StepPerformsTransactionsAndReset := by
  unfold Obligations.StepPerformsTransactionsAndReset
  exact fun _ _ => ⟨fun _ => step_host, step_rst⟩

/-! ### The REG space (45_host_interface.md R212, R213) -/

/-- STATUS by the state it reports: `STATE`, and `DST_VALID` in DONE alone (10_state.md R30). -/
theorem statusWord_of_phase {p : Phase} (h : s.phase = p) :
    statusWord s = phaseCode p ||| if p = .done then 4 else 0 := by
  rw [statusWord, h]
  simp only [dstValid_iff, h]

theorem regRead_beyond (s : State) (h : 17 ≤ i) : regRead s i = 0 := by
  obtain ⟨k, rfl⟩ := Nat.exists_eq_add_of_le' h
  rfl

/-- The register map as one list (10_state.md R28). -/
theorem regRead_eq_getD (s : State) (i : Nat) : regRead s i =
    [0, statusWord s, s.errCode, s.errInfo, s.upc.setWidth 32, s.filterType, s.enabled, s.lowThreshold, s.highThreshold,
      s.blurRadius, s.thresholdValue, s.srcWidth, s.srcHeight, s.srcLen, s.dstWidth, s.dstHeight, s.dstLen].getD i 0 := by
  rcases Nat.lt_or_ge i 17 with h | h
  · interval_cases i <;> rfl
  · rw [regRead_beyond s h, List.getD_eq_default _ _ h]

/-- Settles O41: by the register map, STATUS by the four states. -/
theorem hostReadsRegisters : Obligations.HostReadsRegisters := by
  unfold Obligations.HostReadsRegisters
  intro s i status
  have hstatus : statusWord s = status := by
    cases h : s.phase <;> simp only [status, h] <;> exact statusWord_of_phase h
  rw [transact, regRead_eq_getD, hstatus]

theorem regWrite_busy (hb : s.phase = .busy) (i : Nat) (v : Word) : regWrite i v s = s := if_pos hb

/-- STATUS, the trap record, UPC and the DST descriptor are not the host's to write. -/
theorem regWrite_readOnly (s : State) (v : Word) (h : (1 ≤ i ∧ i ≤ 4) ∨ 14 ≤ i) : regWrite i v s = s := by
  by_cases hb : s.phase = .busy
  · exact regWrite_busy hb i v
  obtain ⟨h1, h4⟩ | h14 := h
  · interval_cases i <;> exact if_neg hb
  · obtain ⟨k, rfl⟩ := Nat.exists_eq_add_of_le' h14
    exact if_neg hb

/-- Settles O42: the write is locked out while BUSY; otherwise it is the arm of its register. -/
theorem hostWritesRegisters : Obligations.HostWritesRegisters := by
  unfold Obligations.HostWritesRegisters
  refine fun s v => ⟨fun hb i => regWrite_busy hb i v, fun hb => ?_⟩
  exact ⟨if_neg hb, if_neg hb, if_neg hb, if_neg hb, if_neg hb, if_neg hb, if_neg hb, if_neg hb, if_neg hb, if_neg hb,
    fun i => regWrite_readOnly s v⟩

/-! ### The windows into the memories (45_host_interface.md R214 to R217) -/

theorem srcRead_busy (hb : s.phase = .busy) (i : Nat) : srcRead s i = 0 := if_neg fun h => h.1 hb

theorem srcRead_eq (hb : s.phase ≠ .busy) (i : Nat) :
    srcRead s i = if i < 4 * s.params.npixMax then BitVec.ofNat 32 (srcAt s i) else 0 := by
  simp only [srcRead, ne_eq, hb, not_false_eq_true, true_and]

theorem srcRead_of_read (hb : s.phase ≠ .busy) (hi : i < 4 * s.params.npixMax) {b : Byte} (h : s.src.read i = some b) :
    srcRead s i = b.setWidth 32 := by
  rw [srcRead_eq hb, if_pos hi, srcAt_of_read h, BitVec.ofNat_toNat]

theorem srcWrite_busy (hb : s.phase = .busy) (i : Nat) (b : Byte) : srcWrite i b s = s := if_neg fun h => h.1 hb

theorem srcWrite_of_lt (hb : s.phase ≠ .busy) (hi : i < 4 * s.params.npixMax) (b : Byte) :
    srcWrite i b s = { s with src := s.src.write i b } := if_pos ⟨hb, hi⟩

theorem srcWrite_beyond (hi : 4 * s.params.npixMax ≤ i) (b : Byte) : srcWrite i b s = s :=
  if_neg fun h => Nat.not_lt.2 hi h.2

theorem dstRead_of_ne_done (hd : s.phase ≠ .done) (i : Nat) : dstRead s i = 0 :=
  if_neg fun h => hd ((dstValid_iff s).1 h.1)

theorem planeRead_busy (hb : s.phase = .busy) (p : Plane) (i : Nat) : planeRead s p i = 0 := if_neg fun h => h.1 hb

theorem planeRead_eq (hb : s.phase ≠ .busy) (p : Plane) (i : Nat) :
    planeRead s p i = if i < s.params.npixMax then BitVec.ofNat 32 (planeAt s p i) else 0 := by
  simp only [planeRead, ne_eq, hb, not_false_eq_true, true_and]

/-- Settles O43: every write and every read of a memory tests BUSY first; register reads do not. -/
theorem busyLocksTheHostOut : Obligations.BusyLocksTheHostOut := by
  unfold Obligations.BusyLocksTheHostOut
  intro s hb
  have hd : s.phase ≠ .done := by simp [hb]
  refine ⟨regWrite_busy hb, srcWrite_busy hb, fun i => ?_, fun i => ?_, fun p i => ?_, fun i => rfl⟩
  · rw [transact, srcRead_busy hb]
  · rw [transact, dstRead_of_ne_done hd]
  · rw [transact, planeRead_busy hb]

/-- Settles O44: the byte written is the byte read, and no other byte moves. -/
theorem srcWindowStoresBytes : Obligations.SrcWindowStoresBytes := by
  unfold Obligations.SrcWindowStoresBytes
  refine fun s hb => ⟨fun i b hi => ?_, fun i b hi => srcWrite_beyond hi b, fun i => ?_⟩
  · have hread : (s.src.write i b).read i = some b := by rw [Memory.read_write, if_pos rfl]
    refine ⟨{ s with src := s.src.write i b }, srcWrite_of_lt hb hi b, rfl, srcAt_of_read hread, fun j hj => ?_, ?_⟩
    · rw [Memory.read_write, if_neg hj]
    · rw [transact, srcRead_of_read (s := { s with src := s.src.write i b }) hb hi hread]
  · rw [transact, srcRead_eq hb]

/-- A complete output lies inside the DST space. -/
theorem Invariant.dstLen_le (h : Invariant s) (hd : s.phase = .done) : s.dstLen.toNat ≤ 4 * s.params.npixMax := by
  obtain ⟨-, -, -, -, hfits, hlen, -⟩ := h.done hd
  omega

theorem Invariant.dstRead_eq (h : Invariant s) (i : Nat) :
    dstRead s i = if s.phase = .done ∧ i < s.dstLen.toNat then BitVec.ofNat 32 (dstAt s i) else 0 := by
  by_cases hd : s.phase = .done
  · have hcap : i < s.dstLen.toNat → i < 4 * s.params.npixMax := fun hi => hi.trans_le (h.dstLen_le hd)
    simp only [dstRead, dstValid_iff, hd, true_and, and_iff_left_of_imp hcap]
  · rw [dstRead_of_ne_done hd, if_neg fun hv => hd hv.1]

/-- Settles O45: in DONE the descriptor bounds the space, so no index below DST_LEN is out of it. -/
theorem dstWindowGatesOutput : Obligations.DstWindowGatesOutput := by
  unfold Obligations.DstWindowGatesOutput
  intro s h i
  rw [transact, h.dstRead_eq]

/-- Settles O46: outside BUSY only the space bounds the read. -/
theorem planeWindowInspects : Obligations.PlaneWindowInspects := by
  unfold Obligations.PlaneWindowInspects
  intro s p i hb
  rw [transact, planeRead_eq hb]

/-! ### ACK (45_host_interface.md R219) -/

theorem ackCommand_ended (h : Ended s) : ackCommand s = { clearRecord s with phase := .idle } := by
  obtain hd | he := h
  · simp only [ackCommand, hd]
  · simp only [ackCommand, he]

theorem ackCommand_ignored (h : s.phase = .idle ∨ s.phase = .busy) : ackCommand s = s := by
  obtain hi | hb := h
  · simp only [ackCommand, hi]
  · simp only [ackCommand, hb]

/-- Settles O48: by the four states. -/
theorem ackReleases : Obligations.AckReleases := by
  unfold Obligations.AckReleases
  exact fun _ => ⟨ackCommand_ended, ackCommand_ignored⟩

end Sys2Proof.Machine
end

section
/-! PROOFS. Exceptions: what trap entry writes, where a trap comes from and how precise it is, what never raises, and that no
state of a run stops (60_exceptions.md R230, R232, R238 to R240). -/

namespace Sys2Proof.Machine

variable {s t : State} {i : Instr}

/-! ### The machine never stops (60_exceptions.md R232, 40_sequencer_control.md R116) -/

/-- Settles O53: transactions, resets, traps and idle turns always answer, and so does the word of a running invocation. -/
theorem machineNeverStops : Obligations.MachineNeverStops := by
  unfold Obligations.MachineNeverStops
  intro s h
  obtain ⟨rest, ⟨a, -, ha⟩ | ⟨-, hr⟩ | ⟨-, ⟨-, hn⟩ | ⟨-, hf⟩ | ⟨hb, hw⟩⟩⟩ := step_cases (s := s) rfl
  · exact ⟨_, ha⟩
  · exact ⟨_, hr⟩
  · exact ⟨_, hn⟩
  · exact ⟨_, hf⟩
  · obtain ⟨i, t, hd, hx⟩ := (h.withInputs rest).fetch_answers hb
    exact ⟨t, hw.trans ((execWord_op hd _).trans hx)⟩

/-! ### The datapath never raises (60_exceptions.md R232) -/

/-- A datapath micro-op that answers advances `upc` and writes neither STATE nor the trap record. -/
theorem datapath_keeps_record (hi : i ∈ dstWriters ++ planeWriters) (hx : exec i s = .next t) :
    t.phase = s.phase ∧ t.errCode = s.errCode ∧ t.errInfo = s.errInfo ∧ t.upc = s.upc + 1 := by
  obtain hd | hp := List.mem_append.1 hi
  · obtain ⟨f, rfl⟩ := dstWriter_next hd hx
    exact ⟨rfl, rfl, rfl, rfl⟩
  · rw [planeWriter_next hp hx]
    exact ⟨rfl, rfl, rfl, rfl⟩

/-- Settles O39: it answers on such a frame, and an answer is a published output or a written plane. -/
theorem datapathNeverRaises : Obligations.DatapathNeverRaises := by
  unfold Obligations.DatapathNeverRaises
  intro i hi s hf hr
  obtain ⟨t, ht⟩ := datapath_answers hi hf fun _ => hr
  exact ⟨t, ht, datapath_keeps_record hi ht⟩

/-! ### Trap entry (60_exceptions.md R230, R240) -/

theorem statusWord_error (h : s.phase = .error) : statusWord s = 3 := by
  rw [statusWord_of_phase h]
  rfl

/-- Settles O9: `info` fits its register, and STATUS reports the ERROR state alone. -/
theorem trapEntryWritesThreeRegisters : Obligations.TrapEntryWritesThreeRegisters := by
  unfold Obligations.TrapEntryWritesThreeRegisters
  exact ⟨fun c _ s hn => ⟨trap_of_lt c hn s, statusWord_error rfl⟩, rfl⟩

/-- Settles O6: the turn of the sequencer tests `env_fail` first. -/
theorem envFailureTrapsBeforeFetch : Obligations.EnvFailureTrapsBeforeFetch := by
  unfold Obligations.EnvFailureTrapsBeforeFetch
  intro s rest hb hi
  rw [step_tick hi, sequencerTurn_fail (s := { s with inputs := rest }) hb, trap_of_lt _ (by decide)]
  rfl

/-! ### Precision (60_exceptions.md R240) -/

/-- No transaction takes a BUSY core out of BUSY (45_host_interface.md R214). -/
theorem transact_keeps_busy (hb : s.phase = .busy) (a : Transaction) : (transact a s).phase = .busy := by
  obtain ⟨-, -, hn, -⟩ | ⟨-, -, hn, -⟩ | e | ⟨hn, -⟩ := transact_cases a s
  · exact absurd hb hn
  · exact absurd hb hn
  · rw [e, hb]
  · exact absurd hb hn

/-- A BUSY core enters ERROR by a trap only, taken on the state less the input the step consumed. -/
theorem trap_of_step_error (hb : s.phase = .busy) (hs : step s = .next t) (ht : t.phase = .error) :
    ∃ rest c n, t = trap c n { s with inputs := rest } := by
  obtain ⟨rest, ⟨a, -, ha⟩ | ⟨-, hr⟩ | ⟨-, ⟨hn, -⟩ | ⟨-, hf⟩ | ⟨-, hw⟩⟩⟩ := step_cases hs
  · injection ha with ha
    rw [ha, transact_keeps_busy (s := { s with inputs := rest }) hb] at ht
    cases ht
  · injection hr with hr
    rw [hr] at ht
    cases ht
  · exact absurd hb hn
  · injection hf with hf
    exact ⟨rest, _, _, hf⟩
  · obtain hk | ⟨-, hd⟩ | ⟨c, n, htrap⟩ := execWord_phase hw.symm
    · cases ht.symm.trans (hk.trans hb)
    · cases ht.symm.trans hd
    · exact ⟨rest, c, n, htrap⟩

/-- Settles O55: a trap writes the record and STATE, and every cause has a code of R230. -/
theorem trapsArePrecise : Obligations.TrapsArePrecise := by
  unfold Obligations.TrapsArePrecise
  intro s t hb hs ht
  obtain ⟨rest, c, n, rfl⟩ := trap_of_step_error hb hs ht
  exact ⟨rfl, causeCode_range c⟩

end Sys2Proof.Machine
end
